-- ==== Sys2Proof/Word.lean ====
section
/-! DEFINITION. The word types of Femtium: 00_scope.md R5, R6 (XLEN = 32, decision D1) and R8. -/

namespace Sys2Proof

/-- A register value, an address, an instruction word: 32 bits (R6 XLEN, R20, R70). -/
abbrev Word := BitVec 32

/-- A byte of memory: 8 bits (R40). -/
abbrev Byte := BitVec 8

/-- The index of a general register: 6 bits, 0 to 63 (R20). -/
abbrev RegIdx := BitVec 6

end Sys2Proof
end

