-- ==== Sys2Proof/Syntax.lean ====
section
/-! DEFINITION. The instructions of Femtium: one constructor for each of the 32 rows of opcode_table.json
(30_encoding.md R84), over the five formats (R71 to R77). A field no instruction reads is kept (R88), so that the
instruction word, which a fault records (R201), can be told from the instruction (log entry 15, safe). -/

namespace Sys2Proof

/-- The sixteen values of the `c` field, by the names of R79. X3, X4, X5 and X6 have no meaning (R81). -/
inductive CmpMode where
  | nz | le | lt | eq | az | gt | ge | ne | x3 | sle | slt | x4 | x5 | sgt | sge | x6
deriving DecidableEq, Repr

/-- Blend mode, the `B` field (R82). -/
inductive BlendMode where
  | mov | and | or | xor
deriving DecidableEq, Repr

/-- Shift mode, the `S` field (R83). `x1` is reserved. -/
inductive ShiftMode where
  | shl | shr | sar | x1
deriving DecidableEq, Repr

/-- The fields of format R (R73). -/
structure FormatR where
  r : RegIdx
  x : RegIdx
  y : RegIdx
  /-- sign/zero-extension select -/
  e : Bool
  /-- the signed 8-bit offset -/
  o : BitVec 8
deriving DecidableEq, Repr

/-- The fields of format C (R74); its bits 8-4 are 0. -/
structure FormatC where
  r : RegIdx
  x : RegIdx
  y : RegIdx
  c : CmpMode
deriving DecidableEq, Repr

/-- The fields of format J (R75); its bit 4 is 0. -/
structure FormatJ where
  r : RegIdx
  x : RegIdx
  /-- the signed jump offset, in 32-bit words -/
  j : BitVec 10
  c : CmpMode
deriving DecidableEq, Repr

/-- The fields of format I (R76). -/
structure FormatI where
  r : RegIdx
  /-- the unsigned 16-bit base value -/
  i : BitVec 16
  /-- the shift value -/
  s : BitVec 5
deriving DecidableEq, Repr

/-- The fields of format M (R77). -/
structure FormatM where
  r : RegIdx
  x : RegIdx
  y : RegIdx
  blend : BlendMode
  shift : ShiftMode
  /-- the shift value -/
  s : BitVec 5
deriving DecidableEq, Repr

/-- The 32 opcodes in the table's order (R84). -/
inductive Opcode where
  | ldb | ldh | ldw | lde
  | stb | sth | stw | ste
  | add | mul | div | nor
  | mask | alu5 | alu6 | alu7
  | movi | addi | cmov | cmp
  | mov4 | mov5 | mov6 | cjmp
  | inPort | outPort | dskr | dskw
  | sys0 | sys | iret | halt
deriving DecidableEq, Repr

/-- An instruction. `low` is the 27 bits below an opcode that uses none of them (R86, R88). -/
inductive Instr where
  | ldb (f : FormatR)
  | ldh (f : FormatR)
  | ldw (f : FormatR)
  | lde (low : BitVec 27)
  | stb (f : FormatR)
  | sth (f : FormatR)
  | stw (f : FormatR)
  | ste (low : BitVec 27)
  | add (f : FormatR)
  | mul (f : FormatR)
  | div (f : FormatR)
  | nor (f : FormatR)
  | mask (f : FormatM)
  | alu5 (low : BitVec 27)
  | alu6 (low : BitVec 27)
  | alu7 (low : BitVec 27)
  | movi (f : FormatI)
  | addi (f : FormatI)
  | cmov (f : FormatC)
  | cmp (f : FormatC)
  | mov4 (low : BitVec 27)
  | mov5 (low : BitVec 27)
  | mov6 (low : BitVec 27)
  | cjmp (f : FormatJ)
  | inPort (f : FormatR)
  | outPort (f : FormatR)
  | dskr (f : FormatR)
  | dskw (f : FormatR)
  | sys0 (low : BitVec 27)
  | sys (low : BitVec 27)
  | iret (low : BitVec 27)
  | halt (low : BitVec 27)
deriving DecidableEq, Repr

/-- The row of the opcode table an instruction belongs to. -/
def Instr.opcode : Instr → Opcode
  | .ldb _ => .ldb
  | .ldh _ => .ldh
  | .ldw _ => .ldw
  | .lde _ => .lde
  | .stb _ => .stb
  | .sth _ => .sth
  | .stw _ => .stw
  | .ste _ => .ste
  | .add _ => .add
  | .mul _ => .mul
  | .div _ => .div
  | .nor _ => .nor
  | .mask _ => .mask
  | .alu5 _ => .alu5
  | .alu6 _ => .alu6
  | .alu7 _ => .alu7
  | .movi _ => .movi
  | .addi _ => .addi
  | .cmov _ => .cmov
  | .cmp _ => .cmp
  | .mov4 _ => .mov4
  | .mov5 _ => .mov5
  | .mov6 _ => .mov6
  | .cjmp _ => .cjmp
  | .inPort _ => .inPort
  | .outPort _ => .outPort
  | .dskr _ => .dskr
  | .dskw _ => .dskw
  | .sys0 _ => .sys0
  | .sys _ => .sys
  | .iret _ => .iret
  | .halt _ => .halt

end Sys2Proof
end

