-- ==== Sys2Proof/WellFormed.lean ====
section
/-! DEFINITION. Which instructions a word can stand for: the value exclusions of 30_encoding.md R81 and R83. -/

namespace Sys2Proof

/-- The twelve compare modes that have a meaning (R79, R81). -/
def CmpMode.defined : CmpMode → Bool
  | .x3 | .x4 | .x5 | .x6 => false
  | .nz | .le | .lt | .eq | .az | .gt | .ge | .ne | .sle | .slt | .sgt | .sge => true

/-- The three shift modes that have a meaning (R83). -/
def ShiftMode.defined : ShiftMode → Bool
  | .x1 => false
  | .shl | .shr | .sar => true

/-- A well-formed instruction: no undefined compare mode in CMOV, CMP and CJMP (R81), no reserved shift mode in MASK
(R83). Every other field may hold any value (R88). -/
def Instr.wf : Instr → Bool
  | .mask f => f.shift.defined
  | .cmov f => f.c.defined
  | .cmp f => f.c.defined
  | .cjmp f => f.c.defined
  | .ldb _ | .ldh _ | .ldw _ | .lde _ | .stb _ | .sth _ | .stw _ | .ste _
  | .add _ | .mul _ | .div _ | .nor _ | .alu5 _ | .alu6 _ | .alu7 _
  | .movi _ | .addi _ | .mov4 _ | .mov5 _ | .mov6 _
  | .inPort _ | .outPort _ | .dskr _ | .dskw _ | .sys0 _ | .sys _ | .iret _ | .halt _ => true

/-- The nine reserved opcodes (R86). -/
def Opcode.reserved : Opcode → Bool
  | .lde | .ste | .alu5 | .alu6 | .alu7 | .mov4 | .mov5 | .mov6 | .sys0 => true
  | .ldb | .ldh | .ldw | .stb | .sth | .stw | .add | .mul | .div | .nor | .mask
  | .movi | .addi | .cmov | .cmp | .cjmp | .inPort | .outPort | .dskr | .dskw | .sys | .iret | .halt => false

end Sys2Proof
end

