-- ==== Sys2Proof/Decode.lean ====
section
/-! DEFINITION. Decoding, total on words and on byte lists and rejecting by name, and the encoder written from the same
tables: 30_encoding.md R71 to R77 (formats), R79, R82, R83 (field values), R84 (opcode map), R85 (decode). -/

namespace Sys2Proof

/-- Why no instruction is read. Each is `IllegalInstruction(w)` when it is executed (R85), but for `truncated`, which a
fetch of four bytes cannot meet. -/
inductive DecodeError where
  /-- fewer than four bytes are left -/
  | truncated
  /-- bits 8-4 of format C or bit 4 of format J are not 0 (R87) -/
  | reservedBits
  /-- an undefined compare mode X3, X4, X5 or X6 (R81) -/
  | undefinedCompareMode
  /-- the reserved shift mode `SM_X1` (R83) -/
  | reservedShiftMode
deriving DecidableEq, Repr

/-- The `O` field of an opcode (R84). -/
def Opcode.bits : Opcode → BitVec 5
  | .ldb => 0x00
  | .ldh => 0x01
  | .ldw => 0x02
  | .lde => 0x03
  | .stb => 0x04
  | .sth => 0x05
  | .stw => 0x06
  | .ste => 0x07
  | .add => 0x08
  | .mul => 0x09
  | .div => 0x0a
  | .nor => 0x0b
  | .mask => 0x0c
  | .alu5 => 0x0d
  | .alu6 => 0x0e
  | .alu7 => 0x0f
  | .movi => 0x10
  | .addi => 0x11
  | .cmov => 0x12
  | .cmp => 0x13
  | .mov4 => 0x14
  | .mov5 => 0x15
  | .mov6 => 0x16
  | .cjmp => 0x17
  | .inPort => 0x18
  | .outPort => 0x19
  | .dskr => 0x1a
  | .dskw => 0x1b
  | .sys0 => 0x1c
  | .sys => 0x1d
  | .iret => 0x1e
  | .halt => 0x1f

/-- The opcode an `O` field names (R84): every value is assigned. -/
def Opcode.ofBits (b : BitVec 5) : Opcode :=
  match b.toNat with
  | 0 => .ldb
  | 1 => .ldh
  | 2 => .ldw
  | 3 => .lde
  | 4 => .stb
  | 5 => .sth
  | 6 => .stw
  | 7 => .ste
  | 8 => .add
  | 9 => .mul
  | 10 => .div
  | 11 => .nor
  | 12 => .mask
  | 13 => .alu5
  | 14 => .alu6
  | 15 => .alu7
  | 16 => .movi
  | 17 => .addi
  | 18 => .cmov
  | 19 => .cmp
  | 20 => .mov4
  | 21 => .mov5
  | 22 => .mov6
  | 23 => .cjmp
  | 24 => .inPort
  | 25 => .outPort
  | 26 => .dskr
  | 27 => .dskw
  | 28 => .sys0
  | 29 => .sys
  | 30 => .iret
  | _ => .halt

/-- The `c` field of a compare mode (R79). -/
def CmpMode.bits : CmpMode → BitVec 4
  | .nz => 0x0
  | .le => 0x1
  | .lt => 0x2
  | .eq => 0x3
  | .az => 0x4
  | .gt => 0x5
  | .ge => 0x6
  | .ne => 0x7
  | .x3 => 0x8
  | .sle => 0x9
  | .slt => 0xa
  | .x4 => 0xb
  | .x5 => 0xc
  | .sgt => 0xd
  | .sge => 0xe
  | .x6 => 0xf

/-- The compare mode a `c` field names (R79). -/
def CmpMode.ofBits (b : BitVec 4) : CmpMode :=
  match b.toNat with
  | 0 => .nz
  | 1 => .le
  | 2 => .lt
  | 3 => .eq
  | 4 => .az
  | 5 => .gt
  | 6 => .ge
  | 7 => .ne
  | 8 => .x3
  | 9 => .sle
  | 10 => .slt
  | 11 => .x4
  | 12 => .x5
  | 13 => .sgt
  | 14 => .sge
  | _ => .x6

/-- The `B` field of a mode (R82). -/
def BlendMode.bits : BlendMode → BitVec 2
  | .mov => 0
  | .and => 1
  | .or => 2
  | .xor => 3

/-- The mode a `B` field names (R82). -/
def BlendMode.ofBits (b : BitVec 2) : BlendMode :=
  match b.toNat with
  | 0 => .mov
  | 1 => .and
  | 2 => .or
  | _ => .xor

/-- The `S` field of a mode (R83). -/
def ShiftMode.bits : ShiftMode → BitVec 2
  | .shl => 0
  | .shr => 1
  | .sar => 2
  | .x1 => 3

/-- The mode a `S` field names (R83). -/
def ShiftMode.ofBits (b : BitVec 2) : ShiftMode :=
  match b.toNat with
  | 0 => .shl
  | 1 => .shr
  | 2 => .sar
  | _ => .x1

/-! ### Fields of a word (R72) -/

/-- The opcode of a word: `w[31:27]`. -/
def opcodeOf (w : Word) : Opcode := Opcode.ofBits (w.extractLsb' 27 5)

/-- The 27 bits below the opcode. -/
def lowBits (w : Word) : BitVec 27 := w.extractLsb' 0 27

/-- Format R: `OOOOOrrrrrrxxxxxxyyyyyyEoooooooo` (R71, R73). -/
def FormatR.ofWord (w : Word) : FormatR where
  r := w.extractLsb' 21 6
  x := w.extractLsb' 15 6
  y := w.extractLsb' 9 6
  e := w.getLsbD 8
  o := w.extractLsb' 0 8

/-- Format C: `OOOOOrrrrrrxxxxxxyyyyyy_____cccc` (R71, R74). -/
def FormatC.ofWord (w : Word) : FormatC where
  r := w.extractLsb' 21 6
  x := w.extractLsb' 15 6
  y := w.extractLsb' 9 6
  c := CmpMode.ofBits (w.extractLsb' 0 4)

/-- Format J: `OOOOOrrrrrrxxxxxxjjjjjjjjjj_cccc` (R71, R75). -/
def FormatJ.ofWord (w : Word) : FormatJ where
  r := w.extractLsb' 21 6
  x := w.extractLsb' 15 6
  j := w.extractLsb' 5 10
  c := CmpMode.ofBits (w.extractLsb' 0 4)

/-- Format I: `OOOOOrrrrrriiiiiiiiiiiiiiiisssss` (R71, R76, conflicts C1 and C2). -/
def FormatI.ofWord (w : Word) : FormatI where
  r := w.extractLsb' 21 6
  i := w.extractLsb' 5 16
  s := w.extractLsb' 0 5

/-- Format M: `OOOOOrrrrrrxxxxxxyyyyyyBBSSsssss` (R71, R77). -/
def FormatM.ofWord (w : Word) : FormatM where
  r := w.extractLsb' 21 6
  x := w.extractLsb' 15 6
  y := w.extractLsb' 9 6
  blend := BlendMode.ofBits (w.extractLsb' 7 2)
  shift := ShiftMode.ofBits (w.extractLsb' 5 2)
  s := w.extractLsb' 0 5

/-! ### Decoding (R85) -/

/-- Format C with its checks in the order of R85: reserved bits (R87), then the mode (R81). -/
def decodeC (w : Word) (mk : FormatC → Instr) : Except DecodeError Instr :=
  if w.extractLsb' 4 5 ≠ 0#5 then .error .reservedBits
  else if (FormatC.ofWord w).c.defined then .ok (mk (FormatC.ofWord w))
  else .error .undefinedCompareMode

/-- Format J with its checks in the order of R85. -/
def decodeJ (w : Word) (mk : FormatJ → Instr) : Except DecodeError Instr :=
  if w.getLsbD 4 then .error .reservedBits
  else if (FormatJ.ofWord w).c.defined then .ok (mk (FormatJ.ofWord w))
  else .error .undefinedCompareMode

/-- Format M with its check (R83). -/
def decodeM (w : Word) (mk : FormatM → Instr) : Except DecodeError Instr :=
  if (FormatM.ofWord w).shift.defined then .ok (mk (FormatM.ofWord w))
  else .error .reservedShiftMode

/-- The instruction a word names (R85). A reserved opcode is read as its own row, whose meaning raises
`IllegalInstruction` (R86, log entry 14, safe). -/
def decodeWord (w : Word) : Except DecodeError Instr :=
  match opcodeOf w with
  | .ldb => .ok (.ldb (.ofWord w))
  | .ldh => .ok (.ldh (.ofWord w))
  | .ldw => .ok (.ldw (.ofWord w))
  | .lde => .ok (.lde (lowBits w))
  | .stb => .ok (.stb (.ofWord w))
  | .sth => .ok (.sth (.ofWord w))
  | .stw => .ok (.stw (.ofWord w))
  | .ste => .ok (.ste (lowBits w))
  | .add => .ok (.add (.ofWord w))
  | .mul => .ok (.mul (.ofWord w))
  | .div => .ok (.div (.ofWord w))
  | .nor => .ok (.nor (.ofWord w))
  | .mask => decodeM w .mask
  | .alu5 => .ok (.alu5 (lowBits w))
  | .alu6 => .ok (.alu6 (lowBits w))
  | .alu7 => .ok (.alu7 (lowBits w))
  | .movi => .ok (.movi (.ofWord w))
  | .addi => .ok (.addi (.ofWord w))
  | .cmov => decodeC w .cmov
  | .cmp => decodeC w .cmp
  | .mov4 => .ok (.mov4 (lowBits w))
  | .mov5 => .ok (.mov5 (lowBits w))
  | .mov6 => .ok (.mov6 (lowBits w))
  | .cjmp => decodeJ w .cjmp
  | .inPort => .ok (.inPort (.ofWord w))
  | .outPort => .ok (.outPort (.ofWord w))
  | .dskr => .ok (.dskr (.ofWord w))
  | .dskw => .ok (.dskw (.ofWord w))
  | .sys0 => .ok (.sys0 (lowBits w))
  | .sys => .ok (.sys (lowBits w))
  | .iret => .ok (.iret (lowBits w))
  | .halt => .ok (.halt (lowBits w))

/-- Four bytes as a big-endian word: the first is bits 31-24 (R41). -/
def wordOfBytes (b0 b1 b2 b3 : Byte) : Word := (b0 ++ b1 ++ b2 ++ b3).cast rfl

/-- The four bytes of a word, the most significant first (R41). -/
def bytesOfWord (w : Word) : List Byte :=
  [w.extractLsb' 24 8, w.extractLsb' 16 8, w.extractLsb' 8 8, w.extractLsb' 0 8]

/-- The instruction at the head of a byte list, with the rest of the list (R70: every instruction is four bytes). -/
def decode : List Byte → Except DecodeError (Instr × List Byte)
  | b0 :: b1 :: b2 :: b3 :: rest =>
    match decodeWord (wordOfBytes b0 b1 b2 b3) with
    | .ok i => .ok (i, rest)
    | .error e => .error e
  | [] | [_] | [_, _] | [_, _, _] => .error .truncated

/-! ### Encoding -/

/-- The word of an opcode that uses no field. -/
def wordOfLow (op : Opcode) (low : BitVec 27) : Word := (op.bits ++ low).cast rfl

/-- Format R laid out (R71). -/
def FormatR.toWord (op : Opcode) (f : FormatR) : Word :=
  (op.bits ++ f.r ++ f.x ++ f.y ++ BitVec.ofBool f.e ++ f.o).cast rfl

/-- Format C laid out (R71), its reserved bits 0. -/
def FormatC.toWord (op : Opcode) (f : FormatC) : Word :=
  (op.bits ++ f.r ++ f.x ++ f.y ++ 0#5 ++ f.c.bits).cast rfl

/-- Format J laid out (R71), its reserved bit 0. -/
def FormatJ.toWord (op : Opcode) (f : FormatJ) : Word :=
  (op.bits ++ f.r ++ f.x ++ f.j ++ 0#1 ++ f.c.bits).cast rfl

/-- Format I laid out (R71). -/
def FormatI.toWord (op : Opcode) (f : FormatI) : Word :=
  (op.bits ++ f.r ++ f.i ++ f.s).cast rfl

/-- Format M laid out (R71). -/
def FormatM.toWord (op : Opcode) (f : FormatM) : Word :=
  (op.bits ++ f.r ++ f.x ++ f.y ++ f.blend.bits ++ f.shift.bits ++ f.s).cast rfl

/-- The word of an instruction (R71 to R77, R84). -/
def encode : Instr → Word
  | .ldb f => f.toWord .ldb
  | .ldh f => f.toWord .ldh
  | .ldw f => f.toWord .ldw
  | .lde low => wordOfLow .lde low
  | .stb f => f.toWord .stb
  | .sth f => f.toWord .sth
  | .stw f => f.toWord .stw
  | .ste low => wordOfLow .ste low
  | .add f => f.toWord .add
  | .mul f => f.toWord .mul
  | .div f => f.toWord .div
  | .nor f => f.toWord .nor
  | .mask f => f.toWord .mask
  | .alu5 low => wordOfLow .alu5 low
  | .alu6 low => wordOfLow .alu6 low
  | .alu7 low => wordOfLow .alu7 low
  | .movi f => f.toWord .movi
  | .addi f => f.toWord .addi
  | .cmov f => f.toWord .cmov
  | .cmp f => f.toWord .cmp
  | .mov4 low => wordOfLow .mov4 low
  | .mov5 low => wordOfLow .mov5 low
  | .mov6 low => wordOfLow .mov6 low
  | .cjmp f => f.toWord .cjmp
  | .inPort f => f.toWord .inPort
  | .outPort f => f.toWord .outPort
  | .dskr f => f.toWord .dskr
  | .dskw f => f.toWord .dskw
  | .sys0 low => wordOfLow .sys0 low
  | .sys low => wordOfLow .sys low
  | .iret low => wordOfLow .iret low
  | .halt low => wordOfLow .halt low

/-- The bytes of an instruction as memory holds them (R41, R70). -/
def encodeBytes (i : Instr) : List Byte := bytesOfWord (encode i)

/-- The instruction the decoder reads from an instruction of `nbits` bits `w`, laid out in bytes. -/
def decodeTableWord (nbits w : Nat) : Option Instr :=
  match decode (bytesOfWord (BitVec.ofNat 32 (w % 2 ^ nbits))) with
  | .ok (i, _) => some i
  | .error _ => none

end Sys2Proof
end

