-- ==== Sys2Proof/Config.lean ====
section
/-! DEFINITION. What a platform fixes (00_scope.md R6) and the free values of the model.

The parameters are plain data. They stand in State as one field that no step changes, so a statement over all states
holds for every configuration (DESIGN CHOICE, log entry 1, safe). -/

namespace Sys2Proof

/-- `DevicePresent(dev)` of R6 and R170 as plain data: the device numbers that answer, or those that do not.
Every predicate on 32-bit numbers is of this form. -/
inductive DeviceSet where
  | only (present : List Word)
  | allBut (absent : List Word)
deriving DecidableEq, Repr

/-- Which function `Div32` is (R6, R132, decision D14). -/
inductive Div32Choice where
  /-- The spec's default: unsigned, truncating. -/
  | unsignedTruncating
  /-- Any other total function of the two operands: `Config.freeDiv`, of which nothing is known (log entry 8, safe). -/
  | unstated
deriving DecidableEq, Repr

/-- The open parameters of R6. -/
structure Config where
  /-- `MEM_SIZE`: memory is the bytes at `0 .. memSize - 1`. -/
  memSize : Nat
  /-- `RESET_VECTOR`. -/
  resetVector : Word
  /-- `RESET_IE`. -/
  resetIE : Bool
  /-- `SYS_VECTOR`: the address of the SYS handler's first instruction. -/
  sysVector : Word
  /-- `IRQ_VECTOR`: the address of the interrupt handler's first instruction. -/
  irqVector : Word
  /-- `HAS_IRQ`: whether the platform can assert the request line at all. -/
  hasIrq : Bool
  /-- `DISK_BLOCK_SIZE`: bytes moved by one DSKR or DSKW. -/
  diskBlockSize : Nat
  /-- `DevicePresent`. -/
  devices : DeviceSet
  /-- `Div32`. -/
  div32 : Div32Choice
deriving DecidableEq, Repr

/-- An entry point: a multiple of 4 below `MEM_SIZE` (R6, R212). -/
abbrev Config.IsEntryPoint (c : Config) (a : Word) : Prop :=
  a.toNat % 4 = 0 ∧ a.toNat < c.memSize

/-- The constraints R6 puts on the parameters. -/
abbrev Config.wf (c : Config) : Prop :=
  (c.memSize % 4 = 0 ∧ 4 ≤ c.memSize ∧ c.memSize ≤ 2 ^ 32) ∧
  c.IsEntryPoint c.resetVector ∧ c.IsEntryPoint c.sysVector ∧ c.IsEntryPoint c.irqVector ∧
  1 ≤ c.diskBlockSize ∧ c.diskBlockSize ≤ c.memSize

/-- The platform of `State.reset`: the whole 32-bit address space, the suggested reset vector 0, and for the rest the
conventions of 95_test_vectors.md part 2. DESIGN CHOICE, log entry 2, unsafe for claims about the run from
`State.reset` alone. -/
def Config.platform : Config where
  memSize := 2 ^ 32
  resetVector := 0
  resetIE := false
  sysVector := 0x40
  irqVector := 0x80
  hasIrq := true
  diskBlockSize := 16
  devices := .allBut []
  div32 := .unsignedTruncating

/-- FREE VALUE: the level of the request line at a step, where the line's list is used up (R205, log entry 5, safe). -/
opaque Config.freeIrq : Nat → Bool

/-- FREE VALUE: the answer of `Env.In`, where the list of answers is used up (R170, R171, log entry 6, safe). -/
opaque Config.freeIn : Nat → Word

/-- FREE VALUE: a byte of `Env.DiskRead`, where the list of bytes is used up (R170, R171, log entry 7, safe). -/
opaque Config.freeDiskByte : Nat → Byte

/-- FREE VALUE: `Div32` under `Div32Choice.unstated` (R132, log entry 8, safe). -/
opaque Config.freeDiv : Word → Word → Word

end Sys2Proof
end

