-- ==== Sys2Proof/Machine/Registers.lean ====
section
/-! DEFINITION. The registers the spec names by index: 10_state.md R21, R23. -/

namespace Sys2Proof.Machine

/-- The index the Reference writes as `IP` (R23, decision D2). -/
def ipIndex : RegIdx := 63

/-- The other register a trap saves and IRET restores (R21, R27). -/
def savedIndex : RegIdx := 62

end Sys2Proof.Machine
end

