-- ==== Sys2Proof/Machine/State.lean ====
section
/-! DEFINITION. The state of the machine: 10_state.md R34, with the environment's side of 46_io.md R170 and the
configuration of 00_scope.md R6 as plain data (log entries 1, 5 to 7, 9, 11). -/

namespace Sys2Proof.Machine

/-- Memory: (address, byte) pairs, addresses strictly rising, none equal to what an unlisted address reads as. -/
abbrev Memory := List Host.Cell

/-- What an address that nothing has written reads as. The spec leaves it open (R33, U24): DESIGN CHOICE 0, log entry 4,
unsafe for claims that rest on a byte nothing has written. -/
def Memory.unlisted : Byte := 0

/-- The canonical form of memory. -/
abbrev Memory.wf (m : Memory) : Prop :=
  m.Pairwise (fun c d => c.1 < d.1) ∧ ∀ c ∈ m, c.2 ≠ Memory.unlisted

/-- One call on the environment, as it is recorded (R170). -/
inductive Event where
  | portIn (dev port value : Word)
  | portOut (dev port value : Word)
  | diskRead (dev blk : Word) (bytes : List Byte)
  | diskWrite (dev blk : Word) (bytes : List Byte)
deriving DecidableEq, Repr

/-- The environment (R170, R205): what it will answer, and what has been said to it. Each list of answers is read from
its head; when it is used up the answer is a free value of Config, drawn by `freeDrawn`. -/
structure Env where
  /-- the request line's levels at the coming steps (R205), next first -/
  irqLevels : List Bool
  /-- the coming answers of `Env.In` (R170), next first -/
  inAnswers : List Word
  /-- the coming bytes of `Env.DiskRead` (R170), next first -/
  diskBytes : List Byte
  /-- how many free values have been drawn: the model's own counter (log entry 9) -/
  freeDrawn : Nat
  /-- the recorded history (R170), in program order (R54), oldest first -/
  events : List Event
deriving DecidableEq, Repr

/-- The state of the machine (R34). -/
structure State where
  /-- the general registers; `x[63]` is the instruction pointer (R20, R23) -/
  x : Vector Word 64
  /-- interrupt enable (R26) -/
  ie : Bool
  /-- the saved copy of `x[62]` (R27) -/
  s62 : Word
  /-- the saved copy of `x[63]` (R27) -/
  s63 : Word
  /-- set by HALT (R28) -/
  halted : Bool
  /-- memory (R30) -/
  mem : Memory
  /-- the platform's parameters (R6); no step changes them -/
  cfg : Config
  /-- the environment (R170, R205) -/
  env : Env
deriving DecidableEq, Repr

/-- The faults F1 to F9 of 60_exceptions.md R201, each with the record of R200: `a0`, the address the instruction was
fetched from, and the fault's own information. A fault stops the machine and nothing of the step takes effect (R200). -/
inductive Fault where
  /-- F1: the decoder's words (R90), and the nine reserved opcodes (R86). Safe: the spec's own outcome. -/
  | illegalInstruction (a0 w : Word)
  /-- F2: a fetch from an address that is no multiple of 4 (R44). Safe: the spec's own outcome. -/
  | fetchMisaligned (a0 : Word)
  /-- F3: a fetch outside memory (R46). Safe: the spec's own outcome. -/
  | fetchAccess (a0 : Word)
  /-- F4: LDH or LDW at a misaligned address (R44). Safe: the spec's own outcome. -/
  | loadMisaligned (a0 ea : Word)
  /-- F5: LDB, LDH or LDW outside memory, or DSKW whose block is (R46, R175). Safe: the spec's own outcome. -/
  | loadAccess (a0 ea : Word)
  /-- F6: STH or STW at a misaligned address (R44). Safe: the spec's own outcome. -/
  | storeMisaligned (a0 ea : Word)
  /-- F7: STB, STH or STW outside memory, or DSKR whose block is (R46, R174). Safe: the spec's own outcome. -/
  | storeAccess (a0 ea : Word)
  /-- F8: DIV whose divisor is 0 (R132). Safe: the spec's own outcome. -/
  | divideByZero (a0 w : Word)
  /-- F9: IN, OUT, DSKR, DSKW on a device that is not there; `info` is the port or the block (R172 to R175). Safe: the
  spec's own outcome. -/
  | device (a0 dev info : Word)
deriving DecidableEq, Repr

/-- The label of a fault in R201. -/
def Fault.code : Fault → Nat
  | .illegalInstruction .. => 1
  | .fetchMisaligned .. => 2
  | .fetchAccess .. => 3
  | .loadMisaligned .. => 4
  | .loadAccess .. => 5
  | .storeMisaligned .. => 6
  | .storeAccess .. => 7
  | .divideByZero .. => 8
  | .device .. => 9

/-- Reasons to give an instruction no meaning. No arm of `exec` answers one: every row of the table has its meaning. -/
inductive Refusal where
  /-- raised by an arm of `exec` that has no meaning yet; safe. No arm is left in that case. -/
  | notModelled (mnemonic : String)
deriving DecidableEq, Repr

/-- The vectored traps T1 and T2 of R203. -/
inductive TrapCause where
  | sys
  | irq
deriving DecidableEq, Repr

/-- The state right after reset (R33, R240) on a platform `cfg`, with what R33 leaves unspecified as arguments:
`x[0]` to `x[62]` as `x` has them, the save registers, the launch memory, the environment. -/
def State.afterReset (cfg : Config) (x : Vector Word 64) (s62 s63 : Word) (mem : Memory) (env : Env) : State where
  x := x.set ipIndex.toNat cfg.resetVector ipIndex.isLt
  ie := cfg.resetIE
  s62 := s62
  s63 := s63
  halted := false
  mem := mem
  cfg := cfg
  env := env

/-- An environment with no answer laid down and no history: every answer is a free value. -/
def Env.silent : Env where
  irqLevels := []
  inAnswers := []
  diskBytes := []
  freeDrawn := 0
  events := []

/-- The machine right after reset on `Config.platform` (log entry 2), the registers R33 leaves unspecified at 0 (log
entry 3), memory with nothing listed. -/
def State.reset : State :=
  State.afterReset Config.platform (Vector.replicate 64 0) 0 0 [] Env.silent

end Sys2Proof.Machine
end

