-- ==== Sys2Proof/Machine/Ops.lean ====
section
/-! DEFINITION. The named operations over registers, memory and the environment, trap entry and its return. -/

namespace Sys2Proof.Machine

/-! ### Registers (R20 to R25) -/

/-- `x[k]` (R9, R20): no register is hard-wired (R21). -/
def State.reg (s : State) (k : RegIdx) : Word := s.x[k.toNat]'k.isLt

/-- `x[k] <- v` (R9); with `k = 63` it is a jump (R25). -/
def State.setReg (s : State) (k : RegIdx) (v : Word) : State := { s with x := s.x.set k.toNat v k.isLt }

/-- `IP`, another spelling of `x[63]` (R9, R23). -/
def State.ip (s : State) : Word := s.reg ipIndex

/-- `pc <- target`, the register write `x[63] <- target` (R9). -/
def State.jump (s : State) (target : Word) : State := s.setReg ipIndex target

/-- `x[63] <- a0 + 4` modulo 2^32, done after the fetch and before the instruction (R24). -/
def State.advanceIp (s : State) : State := s.jump (s.ip + 4)

/-- While an instruction executes: the address `a0` it was fetched from, which a fault records (R24, R200, log entry 12). -/
def State.fetchedFrom (s : State) : Word := s.ip - 4

/-! ### Memory (R40 to R48) -/

/-- The byte at an address. -/
def Memory.read : Memory → Nat → Byte
  | [], _ => Memory.unlisted
  | c :: m, a => if c.1 = a then c.2 else Memory.read m a

/-- Take an address off the list. -/
def Memory.erase (m : Memory) (a : Nat) : Memory := m.filter (fun c => c.1 ≠ a)

/-- List an address with a byte, in its place. -/
def Memory.insert : Memory → Nat → Byte → Memory
  | [], a, v => [(a, v)]
  | c :: m, a, v =>
    if a < c.1 then (a, v) :: c :: m
    else if c.1 = a then (a, v) :: m
    else c :: Memory.insert m a v

/-- `mem[a] <- v`, keeping the canonical form: a byte equal to what an unlisted address reads as is not listed. -/
def Memory.write (m : Memory) (a : Nat) (v : Byte) : Memory :=
  if v = Memory.unlisted then m.erase a else m.insert a v

/-- The `n` bytes from address `a` on, lowest address first. -/
def Memory.readBytes (m : Memory) (a : Nat) : Nat → List Byte
  | 0 => []
  | n + 1 => m.read a :: m.readBytes (a + 1) n

/-- Lay bytes down from address `a` on. -/
def Memory.writeBytes (m : Memory) (a : Nat) : List Byte → Memory
  | [] => m
  | b :: bs => (m.write a b).writeBytes (a + 1) bs

/-- The number big-endian bytes make (R42, R47). -/
def beValue : List Byte → Nat
  | [] => 0
  | b :: bs => b.toNat * 2 ^ (8 * bs.length) + beValue bs

/-- The low `8 * n` bits of a word as `n` big-endian bytes (R42, R48). -/
def beBytes (v : Word) : Nat → List Byte
  | 0 => []
  | n + 1 => v.extractLsb' (8 * n) 8 :: beBytes v n

/-- What reaches memory by MemRead and MemWrite (R47, R48). -/
inductive Access where
  | fetch
  | load
  | store
deriving DecidableEq, Repr

/-- The fault of a misaligned access (R44). For a fetch the record's `a0` is the address itself (R200). -/
def State.misaligned (s : State) (k : Access) (addr : Word) : Fault :=
  match k with
  | .fetch => .fetchMisaligned addr
  | .load => .loadMisaligned s.fetchedFrom addr
  | .store => .storeMisaligned s.fetchedFrom addr

/-- The fault of an access outside memory (R46). -/
def State.outside (s : State) (k : Access) (addr : Word) : Fault :=
  match k with
  | .fetch => .fetchAccess addr
  | .load => .loadAccess s.fetchedFrom addr
  | .store => .storeAccess s.fetchedFrom addr

/-- An `n`-byte access at `addr` is inside memory, computed without wrap-around (R46). -/
def State.inMemory (s : State) (addr : Word) (n : Nat) : Bool := addr.toNat + n ≤ s.cfg.memSize

/-- The checks of MemRead and MemWrite: alignment before bounds (R47, R48, R208). -/
def State.checkAccess (s : State) (k : Access) (addr : Word) (n : Nat) : Option Fault :=
  if addr.toNat % n ≠ 0 then some (s.misaligned k addr)
  else if s.inMemory addr n then none
  else some (s.outside k addr)

/-- `MemRead(addr, n)` (R47), the value zero-extended to a word. -/
def State.memRead (s : State) (k : Access) (addr : Word) (n : Nat) : Except Fault Word :=
  match s.checkAccess k addr n with
  | some flt => .error flt
  | none => .ok (BitVec.ofNat 32 (beValue (s.mem.readBytes addr.toNat n)))

/-- `MemWrite(addr, n, v)` (R48): all `n` bytes are written or none is. -/
def State.memWrite (s : State) (addr : Word) (n : Nat) (v : Word) : Except Fault State :=
  match s.checkAccess .store addr n with
  | some flt => .error flt
  | none => .ok { s with mem := s.mem.writeBytes addr.toNat (beBytes v n) }

/-- The instruction word at `x[63]` (R41, R244). -/
def State.fetch (s : State) : Except Fault Word := s.memRead .fetch s.ip 4

/-! ### The environment (R170, R171, R205) -/

/-- `DevicePresent(dev)` (R170). -/
def State.devicePresent (s : State) (dev : Word) : Bool :=
  match s.cfg.devices with
  | .only l => l.contains dev
  | .allBut l => !l.contains dev

/-- The line's level at this step, and the environment after it has been read (R205). -/
def Env.nextIrq (e : Env) : Bool × Env :=
  match e.irqLevels with
  | b :: rest => (b, { e with irqLevels := rest })
  | [] => (Config.freeIrq e.freeDrawn, { e with freeDrawn := e.freeDrawn + 1 })

/-- The answer of `Env.In` (R170), and the environment after it. -/
def Env.nextIn (e : Env) : Word × Env :=
  match e.inAnswers with
  | v :: rest => (v, { e with inAnswers := rest })
  | [] => (Config.freeIn e.freeDrawn, { e with freeDrawn := e.freeDrawn + 1 })

/-- One byte of a disk answer, and the environment after it. -/
def Env.nextDiskByte (e : Env) : Byte × Env :=
  match e.diskBytes with
  | b :: rest => (b, { e with diskBytes := rest })
  | [] => (Config.freeDiskByte e.freeDrawn, { e with freeDrawn := e.freeDrawn + 1 })

/-- The answer of `Env.DiskRead`, `n` bytes (R170), and the environment after it. -/
def Env.nextDisk (e : Env) : Nat → List Byte × Env
  | 0 => ([], e)
  | n + 1 =>
    let first := e.nextDiskByte
    let others := first.2.nextDisk n
    (first.1 :: others.1, others.2)

/-- Record a call at the end of the history (R54, R170). -/
def Env.record (e : Env) (ev : Event) : Env := { e with events := e.events ++ [ev] }

/-- Put an environment in the state. -/
def State.setEnv (s : State) (e : Env) : State := { s with env := e }

/-- `Env.IrqAsserted` at this step: never with `HAS_IRQ = false` (R205). -/
def State.irqAsserted (s : State) : Bool := s.cfg.hasIrq && s.env.nextIrq.1

/-- The state once the line has been read for this step; on a platform without a line there is nothing to read. -/
def State.afterIrqRead (s : State) : State := if s.cfg.hasIrq then s.setEnv s.env.nextIrq.2 else s

/-- The step is `TrapEntry(IRQ)`: `IE = 1` and the request asserted (R206). -/
def State.takesIrq (s : State) : Bool := s.ie && s.irqAsserted

/-! ### Traps (R203, R210, R213) -/

/-- Where a trap goes (R210, R212). -/
def State.vector (s : State) (cause : TrapCause) : Word :=
  match cause with
  | .sys => s.cfg.sysVector
  | .irq => s.cfg.irqVector

/-- `TrapEntry(cause)` (R210): save `x[62]` and `x[63]`, clear `IE`, go to the vector; nothing else changes. -/
def State.trapEntry (s : State) (cause : TrapCause) : State :=
  { s with s62 := s.reg savedIndex, s63 := s.ip, ie := false }.jump (s.vector cause)

/-- The return from a trap (R182, R213): `x[62]` and `x[63]` from the save registers, `IE <- 1`, always to 1. -/
def State.trapReturn (s : State) : State :=
  { (s.setReg savedIndex s.s62).jump s.s63 with ie := true }

/-! ### Outcomes -/

/-- `raise IllegalInstruction(w)` by an instruction that is executing (R200, R201 F1). -/
def State.illegal (s : State) (i : Instr) : Host.Outcome State Fault Refusal :=
  .fault (.illegalInstruction s.fetchedFrom (encode i))

/-- `raise DeviceFault(dev, info)` (R200, R201 F9). -/
def State.noDevice (s : State) (dev info : Word) : Host.Outcome State Fault Refusal :=
  .fault (.device s.fetchedFrom dev info)

/-- Write a loaded value, or fault. -/
def State.finishLoad (s : State) (r : RegIdx) (v : Except Fault Word) : Host.Outcome State Fault Refusal :=
  match v with
  | .ok v => .next (s.setReg r v)
  | .error flt => .fault flt

/-- The stored state, or the fault. -/
def finishStore (t : Except Fault State) : Host.Outcome State Fault Refusal :=
  match t with
  | .ok t => .next t
  | .error flt => .fault flt

end Sys2Proof.Machine
end

