-- ==== Sys2Proof/Machine/Operands.lean ====
section
/-! DEFINITION. The operand forms: effective addresses, constants, the second operand of ALU1, shift and blend, division. -/

namespace Sys2Proof.Machine

/-- `sext_32(f.o)`: the offset is sign-extended from 8 to 32 bits, everywhere (R78, decision D11). -/
def offset (f : FormatR) : Word := f.o.signExtend 32

/-- `(x[f.x] + x[f.y] + sext_32(f.o)) mod 2^32` (R45). -/
def effectiveAddress (f : FormatR) (s : State) : Word := s.reg f.x + s.reg f.y + offset f

/-- `(x[f.y] + sext_32(f.o)) mod 2^32`: the second operand of ADD, MUL and DIV (R134) and the port of IN and OUT
(R172, R173). -/
def offsetSum (f : FormatR) (s : State) : Word := s.reg f.y + offset f

/-- `extend(v, E)` of the low `k` bits (R110, R111, decision D10): `E = 1` sign-extends. -/
def extend (e : Bool) (k : Nat) (v : Word) : Word :=
  if e then (v.setWidth k).signExtend 32 else (v.setWidth k).setWidth 32

/-- `zext_32(f.i) >>u f.s` (R78, decision D17). -/
def immediate (f : FormatI) : Word := (f.i.setWidth 32) >>> f.s.toNat

/-- `4 * sext_32(f.j)` modulo 2^32 (R78). -/
def jumpOffset (f : FormatJ) : Word := 4 * f.j.signExtend 32

/-- `Shift(v, mode, n)` (R141); no value in the reserved mode. -/
def shift (mode : ShiftMode) (v : Word) (n : Nat) : Option Word :=
  match mode with
  | .shl => some (v <<< n)
  | .shr => some (v >>> n)
  | .sar => some (v.sshiftRight n)
  | .x1 => none

/-- `Blend(a, mode, m)` (R142). -/
def blend (mode : BlendMode) (a m : Word) : Word :=
  match mode with
  | .mov => m
  | .and => a &&& m
  | .or => a ||| m
  | .xor => a ^^^ m

/-- `Div32(n, d)` for a non-zero divisor (R132): the default, or a free function of the operands (log entry 8). -/
def div32 (choice : Div32Choice) (n d : Word) : Word :=
  match choice with
  | .unsignedTruncating => n / d
  | .unstated => Config.freeDiv n d

end Sys2Proof.Machine
end

