-- ==== Sys2Proof/Machine/Alu1.lean ====
section
/-! DEFINITION. The ALU1 group: 42_alu1.md R130 to R134; `E` is ignored (R88). -/

namespace Sys2Proof.Machine

/-- ADD (R130). -/
def execAdd (f : FormatR) (s : State) : Host.Outcome State Fault Refusal :=
  .next (s.setReg f.r (s.reg f.x + offsetSum f s))

/-- MUL (R131): the low 32 bits of the product. -/
def execMul (f : FormatR) (s : State) : Host.Outcome State Fault Refusal :=
  .next (s.setReg f.r (s.reg f.x * offsetSum f s))

/-- DIV (R132): a zero divisor raises `DivideByZero(w)`. -/
def execDiv (f : FormatR) (s : State) : Host.Outcome State Fault Refusal :=
  if offsetSum f s = 0 then .fault (.divideByZero s.fetchedFrom (encode (.div f)))
  else .next (s.setReg f.r (div32 s.cfg.div32 (s.reg f.x) (offsetSum f s)))

/-- NOR (R133). -/
def execNor (f : FormatR) (s : State) : Host.Outcome State Fault Refusal :=
  .next (s.setReg f.r (~~~(s.reg f.x ||| s.reg f.y ||| offset f)))

end Sys2Proof.Machine
end

