-- ==== Sys2Proof/Machine/Alu2.lean ====
section
/-! DEFINITION. The ALU2 group: 43_alu2_mask.md R140 to R145. -/

namespace Sys2Proof.Machine

/-- MASK (R140): the blended source is `x[f.x]` (conflict C4, decision D15). The reserved shift mode raises
`IllegalInstruction(w)`. -/
def execMask (f : FormatM) (s : State) : Host.Outcome State Fault Refusal :=
  match shift f.shift (s.reg f.y) f.s.toNat with
  | some m => .next (s.setReg f.r (blend f.blend (s.reg f.x) m))
  | none => s.illegal (.mask f)

/-- ALU5, reserved: `raise IllegalInstruction(w)` for every value of the low 27 bits (R143, R86). -/
def execAlu5 (low : BitVec 27) (s : State) : Host.Outcome State Fault Refusal := s.illegal (.alu5 low)

/-- ALU6, reserved: `raise IllegalInstruction(w)` for every value of the low 27 bits (R144, R86). -/
def execAlu6 (low : BitVec 27) (s : State) : Host.Outcome State Fault Refusal := s.illegal (.alu6 low)

/-- ALU7, reserved: `raise IllegalInstruction(w)` for every value of the low 27 bits (R145, R86). -/
def execAlu7 (low : BitVec 27) (s : State) : Host.Outcome State Fault Refusal := s.illegal (.alu7 low)

end Sys2Proof.Machine
end

