-- ==== Sys2Proof/Machine/Io.lean ====
section
/-! DEFINITION. The IO group: 46_io.md R170 to R175; `E` is ignored, and `o` in DSKR and DSKW (R88). -/

namespace Sys2Proof.Machine

/-- IN (R172). -/
def execInPort (f : FormatR) (s : State) : Host.Outcome State Fault Refusal :=
  let dev := s.reg f.x
  let port := offsetSum f s
  let answer := s.env.nextIn
  if s.devicePresent dev then
    .next ((s.setReg f.r answer.1).setEnv (answer.2.record (.portIn dev port answer.1)))
  else s.noDevice dev port

/-- OUT (R173). -/
def execOutPort (f : FormatR) (s : State) : Host.Outcome State Fault Refusal :=
  let dev := s.reg f.x
  let port := offsetSum f s
  if s.devicePresent dev then .next (s.setEnv (s.env.record (.portOut dev port (s.reg f.r))))
  else s.noDevice dev port

/-- DSKR (R174): the device is checked before memory, the block as a whole before any byte moves (R208). -/
def execDskr (f : FormatR) (s : State) : Host.Outcome State Fault Refusal :=
  let base := s.reg f.r
  let blk := s.reg f.x
  let dev := s.reg f.y
  let answer := s.env.nextDisk s.cfg.diskBlockSize
  if s.devicePresent dev then
    if s.inMemory base s.cfg.diskBlockSize then
      .next ({ s with mem := s.mem.writeBytes base.toNat answer.1 }.setEnv
        (answer.2.record (.diskRead dev blk answer.1)))
    else .fault (s.outside .store base)
  else s.noDevice dev blk

/-- DSKW (R175): the device is checked before memory (R208). -/
def execDskw (f : FormatR) (s : State) : Host.Outcome State Fault Refusal :=
  let base := s.reg f.r
  let blk := s.reg f.x
  let dev := s.reg f.y
  if s.devicePresent dev then
    if s.inMemory base s.cfg.diskBlockSize then
      .next (s.setEnv (s.env.record
        (.diskWrite dev blk (s.mem.readBytes base.toNat s.cfg.diskBlockSize))))
    else .fault (s.outside .load base)
  else s.noDevice dev blk

end Sys2Proof.Machine
end

