-- ==== Sys2Proof/Machine/Load.lean ====
section
/-! DEFINITION. The Load group: 40_load.md R110 to R113. -/

namespace Sys2Proof.Machine

/-- LDB (R110). -/
def execLdb (f : FormatR) (s : State) : Host.Outcome State Fault Refusal :=
  s.finishLoad f.r ((s.memRead .load (effectiveAddress f s) 1).map (extend f.e 8))

/-- LDH (R111). -/
def execLdh (f : FormatR) (s : State) : Host.Outcome State Fault Refusal :=
  s.finishLoad f.r ((s.memRead .load (effectiveAddress f s) 2).map (extend f.e 16))

/-- LDW (R112); `E` is ignored (R88). -/
def execLdw (f : FormatR) (s : State) : Host.Outcome State Fault Refusal :=
  s.finishLoad f.r (s.memRead .load (effectiveAddress f s) 4)

/-- LDE, reserved: `raise IllegalInstruction(w)` for every value of the low 27 bits (R113, R86). -/
def execLde (low : BitVec 27) (s : State) : Host.Outcome State Fault Refusal := s.illegal (.lde low)

end Sys2Proof.Machine
end

