-- ==== Sys2Proof/Machine/Flags.lean ====
section
/-! DEFINITION. Femtium has no condition flags (10_state.md R26); what stands in their place is the condition function of
30_encoding.md R80, evaluated inside CMOV, CMP and CJMP. -/

namespace Sys2Proof.Machine

/-- `Cond(c, src1, src2)` (R80); no truth value in the modes X3 to X6 (R81). -/
def condition (c : CmpMode) (src1 src2 : Word) : Option Bool :=
  match c with
  | .nz => some (src2 != 0)
  | .le => some (src1.ule src2)
  | .lt => some (src1.ult src2)
  | .eq => some (src1 == src2)
  | .az => some (src2 == 0)
  | .gt => some (src2.ult src1)
  | .ge => some (src2.ule src1)
  | .ne => some (src1 != src2)
  | .x3 => none
  | .sle => some (src1.sle src2)
  | .slt => some (src1.slt src2)
  | .x4 => none
  | .x5 => none
  | .sgt => some (src2.slt src1)
  | .sge => some (src2.sle src1)
  | .x6 => none

end Sys2Proof.Machine
end

