-- ==== Sys2Proof/Machine/Mov1.lean ====
section
/-! DEFINITION. The MOV1 group: 44_mov1.md R150 to R153. -/

namespace Sys2Proof.Machine

/-- MOVI (R150). -/
def execMovi (f : FormatI) (s : State) : Host.Outcome State Fault Refusal :=
  .next (s.setReg f.r (immediate f))

/-- ADDI (R151). -/
def execAddi (f : FormatI) (s : State) : Host.Outcome State Fault Refusal :=
  .next (s.setReg f.r (s.reg f.r + immediate f))

/-- CMOV (R152): when the condition fails the destination is not written. -/
def execCmov (f : FormatC) (s : State) : Host.Outcome State Fault Refusal :=
  match condition f.c (s.reg f.x) (s.reg f.y) with
  | some true => .next (s.setReg f.r (s.reg f.x))
  | some false => .next s
  | none => s.illegal (.cmov f)

/-- CMP (R153): the destination is always written, with 0 or 1. -/
def execCmp (f : FormatC) (s : State) : Host.Outcome State Fault Refusal :=
  match condition f.c (s.reg f.x) (s.reg f.y) with
  | some b => .next (s.setReg f.r (if b then 1 else 0))
  | none => s.illegal (.cmp f)

end Sys2Proof.Machine
end

