-- ==== Sys2Proof/Machine/Mov2.lean ====
section
/-! DEFINITION. The MOV2 group: 45_mov2_cjmp.md R160 to R163. -/

namespace Sys2Proof.Machine

/-- MOV4, reserved: `raise IllegalInstruction(w)` for every value of the low 27 bits (R160, R86). -/
def execMov4 (low : BitVec 27) (s : State) : Host.Outcome State Fault Refusal := s.illegal (.mov4 low)

/-- MOV5, reserved: `raise IllegalInstruction(w)` for every value of the low 27 bits (R161, R86). -/
def execMov5 (low : BitVec 27) (s : State) : Host.Outcome State Fault Refusal := s.illegal (.mov5 low)

/-- MOV6, reserved: `raise IllegalInstruction(w)` for every value of the low 27 bits (R162, R86). -/
def execMov6 (low : BitVec 27) (s : State) : Host.Outcome State Fault Refusal := s.illegal (.mov6 low)

/-- CJMP (R163): `src1 = x[f.x]`, `src2 = x[f.r]` (decision D21); the target is relative to the incremented IP (decision D4). -/
def execCjmp (f : FormatJ) (s : State) : Host.Outcome State Fault Refusal :=
  match condition f.c (s.reg f.x) (s.reg f.r) with
  | some true => .next (s.jump (s.ip + jumpOffset f))
  | some false => .next s
  | none => s.illegal (.cjmp f)

end Sys2Proof.Machine
end

