-- ==== Sys2Proof/Machine/Store.lean ====
section
/-! DEFINITION. The Store group: 41_store.md R120 to R123; `E` is ignored (R88). -/

namespace Sys2Proof.Machine

/-- STB (R120). -/
def execStb (f : FormatR) (s : State) : Host.Outcome State Fault Refusal :=
  finishStore (s.memWrite (effectiveAddress f s) 1 (s.reg f.r))

/-- STH (R121). -/
def execSth (f : FormatR) (s : State) : Host.Outcome State Fault Refusal :=
  finishStore (s.memWrite (effectiveAddress f s) 2 (s.reg f.r))

/-- STW (R122). -/
def execStw (f : FormatR) (s : State) : Host.Outcome State Fault Refusal :=
  finishStore (s.memWrite (effectiveAddress f s) 4 (s.reg f.r))

/-- STE, reserved: `raise IllegalInstruction(w)` for every value of the low 27 bits (R123, R86). -/
def execSte (low : BitVec 27) (s : State) : Host.Outcome State Fault Refusal := s.illegal (.ste low)

end Sys2Proof.Machine
end

