-- ==== Sys2Proof/Machine/Sys.lean ====
section
/-! DEFINITION. The SYS group: 47_sys.md R180 to R183; the low 27 bits are ignored (R88). -/

namespace Sys2Proof.Machine

/-- SYS0, reserved: `raise IllegalInstruction(w)` for every value of the low 27 bits (R180, R86). -/
def execSys0 (low : BitVec 27) (s : State) : Host.Outcome State Fault Refusal := s.illegal (.sys0 low)

/-- SYS (R181): `TrapEntry(SYS)`, whatever `IE` is. -/
def execSys (_low : BitVec 27) (s : State) : Host.Outcome State Fault Refusal := .next (s.trapEntry .sys)

/-- IRET (R182). -/
def execIret (_low : BitVec 27) (s : State) : Host.Outcome State Fault Refusal := .next s.trapReturn

/-- HALT (R183). -/
def execHalt (_low : BitVec 27) (s : State) : Host.Outcome State Fault Refusal := .next { s with halted := true }

end Sys2Proof.Machine
end

