-- ==== Sys2Proof/Machine/Dispatch.lean ====
section
/-! DEFINITION. The meaning of each instruction, one arm a row of the opcode table (30_encoding.md R84, 70_reset_and_hazards.md
R244). `exec` is what the step does after the fetch: in `s` the IP is already incremented (R24, log entry 13). -/

namespace Sys2Proof.Machine

def exec (i : Instr) (s : State) : Host.Outcome State Fault Refusal :=
  match i with
  | .ldb f => Sys2Proof.Machine.execLdb f s
  | .ldh f => Sys2Proof.Machine.execLdh f s
  | .ldw f => Sys2Proof.Machine.execLdw f s
  | .lde low => Sys2Proof.Machine.execLde low s
  | .stb f => Sys2Proof.Machine.execStb f s
  | .sth f => Sys2Proof.Machine.execSth f s
  | .stw f => Sys2Proof.Machine.execStw f s
  | .ste low => Sys2Proof.Machine.execSte low s
  | .add f => Sys2Proof.Machine.execAdd f s
  | .mul f => Sys2Proof.Machine.execMul f s
  | .div f => Sys2Proof.Machine.execDiv f s
  | .nor f => Sys2Proof.Machine.execNor f s
  | .mask f => Sys2Proof.Machine.execMask f s
  | .alu5 low => Sys2Proof.Machine.execAlu5 low s
  | .alu6 low => Sys2Proof.Machine.execAlu6 low s
  | .alu7 low => Sys2Proof.Machine.execAlu7 low s
  | .movi f => Sys2Proof.Machine.execMovi f s
  | .addi f => Sys2Proof.Machine.execAddi f s
  | .cmov f => Sys2Proof.Machine.execCmov f s
  | .cmp f => Sys2Proof.Machine.execCmp f s
  | .mov4 low => Sys2Proof.Machine.execMov4 low s
  | .mov5 low => Sys2Proof.Machine.execMov5 low s
  | .mov6 low => Sys2Proof.Machine.execMov6 low s
  | .cjmp f => Sys2Proof.Machine.execCjmp f s
  | .inPort f => Sys2Proof.Machine.execInPort f s
  | .outPort f => Sys2Proof.Machine.execOutPort f s
  | .dskr f => Sys2Proof.Machine.execDskr f s
  | .dskw f => Sys2Proof.Machine.execDskw f s
  | .sys0 low => Sys2Proof.Machine.execSys0 low s
  | .sys low => Sys2Proof.Machine.execSys low s
  | .iret low => Sys2Proof.Machine.execIret low s
  | .halt low => Sys2Proof.Machine.execHalt low s

end Sys2Proof.Machine
end

