-- ==== Sys2Proof/Machine/Step.lean ====
section
/-! DEFINITION. One step of the machine: 70_reset_and_hazards.md R244, its checks in the order of 60_exceptions.md R208. -/

namespace Sys2Proof.Machine

/-- One step (R244). A halted machine takes no step: the model answers the same state (R245, log entry 10). -/
def step (s : State) : Host.Outcome State Fault Refusal :=
  if s.halted then .next s
  else if s.takesIrq then .next (s.afterIrqRead.trapEntry .irq)
  else
    match s.fetch with
    | .error flt => .fault flt
    | .ok w =>
      match decodeWord w with
      | .error _ => .fault (.illegalInstruction s.ip w)
      | .ok i => exec i s.afterIrqRead.advanceIp

/-- The state with the instruction `w` loaded where the next step fetches, running and with the request line released for
that step, so that the next step runs it (log entry 16). -/
def State.withFetchWord (s : State) (nbits w : Nat) : State :=
  { s with
    halted := false
    mem := s.mem.writeBytes s.ip.toNat (bytesOfWord (BitVec.ofNat 32 (w % 2 ^ nbits)))
    env := { s.env with irqLevels := false :: s.env.irqLevels.drop 1 } }

end Sys2Proof.Machine
end

