-- ==== Sys2Proof/Safety.lean ====
section
/-! DEFINITION. The terms the claims are stated in: safe steps, the invariant, frames, what an instruction reads, writes and
can raise (10_state.md R22, 60_exceptions.md R202), and the readings of a condition (30_encoding.md R79). -/

namespace Sys2Proof.Machine

/-- The step does not fault. -/
def State.StepIsSafe (s : State) : Prop := ∃ t, step s = .next t

/-- The invariant: the parameters meet R6, memory is canonical, and nothing is listed outside memory (R40). -/
abbrev State.Inv (s : State) : Prop :=
  s.cfg.wf ∧ s.mem.wf ∧ ∀ c ∈ s.mem, c.1 < s.cfg.memSize

/-! ### What a step does with the word it fetches -/

/-- The step fetches `w`: the machine runs, no interrupt is taken, the fetch succeeds (R208, checks 1 to 5). -/
def State.Fetches (s : State) (w : Word) : Prop :=
  s.halted = false ∧ s.takesIrq = false ∧ s.fetch = .ok w

/-- The step executes `i`. -/
def State.Executes (s : State) (i : Instr) : Prop := ∃ w, s.Fetches w ∧ decodeWord w = .ok i

/-- The step is an interrupt entry (R206). -/
def State.Interrupts (s : State) : Prop := s.halted = false ∧ s.takesIrq = true

/-! ### Frames -/

/-- The system state is the same: `IE`, `S62`, `S63`, `halted`, the parameters. -/
def SameSystem (s t : State) : Prop :=
  t.ie = s.ie ∧ t.s62 = s.s62 ∧ t.s63 = s.s63 ∧ t.halted = s.halted ∧ t.cfg = s.cfg

/-- Every byte of memory is the same. -/
def SameMemory (s t : State) : Prop := ∀ a, t.mem.read a = s.mem.read a

/-- Every register is the same, the IP among them. -/
def SameRegs (s t : State) : Prop := ∀ k, t.reg k = s.reg k

/-- Nothing but register `r` changed. -/
def OnlyReg (s t : State) (r : RegIdx) : Prop :=
  (∀ k, k ≠ r → t.reg k = s.reg k) ∧ SameMemory s t ∧ SameSystem s t ∧ t.env = s.env

/-- Nothing but the `n` bytes from address `a` on changed. -/
def OnlyBytes (s t : State) (a n : Nat) : Prop :=
  SameRegs s t ∧ (∀ b, ¬(a ≤ b ∧ b < a + n) → t.mem.read b = s.mem.read b) ∧ SameSystem s t ∧ t.env = s.env

/-- Trap entry as R210 has it: `x[62]` and `x[63]` saved, `IE` cleared, `x[63]` at the vector, nothing else changed but
what the environment answered. -/
def TrapTaken (s t : State) (vector : Word) : Prop :=
  t.s62 = s.reg 62 ∧ t.s63 = s.reg 63 ∧ t.ie = false ∧ t.reg 63 = vector ∧
  (∀ k, k ≠ 63 → t.reg k = s.reg k) ∧ SameMemory s t ∧ t.halted = s.halted ∧ t.cfg = s.cfg

/-- The environment differs only by one call recorded at the end of its history (R170). -/
def RecordsOnly (s t : State) (ev : Event) : Prop :=
  t.env = { s.env with events := s.env.events ++ [ev] }

/-! ### Operands as numbers -/

/-- `b = (x[f.y] + sext_32(f.o)) mod 2^32`, in integers (R134). -/
def operandB (f : FormatR) (s : State) : Int := ((s.reg f.y).toNat + f.o.toInt) % 2 ^ 32

/-- `zext_32(f.i) >>u f.s`, in naturals (R78). -/
def immediateValue (f : FormatI) : Nat := f.i.toNat / 2 ^ f.s.toNat

/-! ### Encodings -/

/-- Every word with opcode `op` is read as the format R instruction `mk` (R73, R84). -/
def ReadsFormatR (op : BitVec 5) (mk : FormatR → Instr) : Prop :=
  ∀ w : Word, w.extractLsb' 27 5 = op → decodeWord w = .ok (mk {
    r := w.extractLsb' 21 6, x := w.extractLsb' 15 6, y := w.extractLsb' 9 6,
    e := w.getLsbD 8, o := w.extractLsb' 0 8 })

/-- Every word with opcode `op` is read as the instruction `mk` of its low 27 bits (R86, R88). -/
def ReadsOpcodeOnly (op : BitVec 5) (mk : BitVec 27 → Instr) : Prop :=
  ∀ w : Word, w.extractLsb' 27 5 = op → decodeWord w = .ok (mk (w.extractLsb' 0 27))

/-- Every step that fetches the word raises `IllegalInstruction(w)`, and the decoder refuses it. -/
def RaisesIllegal (w : Word) : Prop :=
  (∃ e, decodeWord w = .error e) ∧ ∀ s : State, s.Fetches w → step s = .fault (.illegalInstruction (s.reg 63) w)

/-- Every word with opcode `op` is read as the format I instruction `mk` (R76). -/
def ReadsFormatI (op : BitVec 5) (mk : FormatI → Instr) : Prop :=
  ∀ w : Word, w.extractLsb' 27 5 = op → decodeWord w = .ok (mk {
    r := w.extractLsb' 21 6, i := w.extractLsb' 5 16, s := w.extractLsb' 0 5 })

/-- Every word with opcode `op` is read as the format C instruction `mk` (R74), unless its reserved bits are not 0 (R87) or
its mode is undefined (R81). -/
def ReadsFormatC (op : BitVec 5) (mk : FormatC → Instr) : Prop :=
  ∀ w : Word, w.extractLsb' 27 5 = op →
    if w.extractLsb' 4 5 = 0#5 ∧ w.extractLsb' 0 4 ∉ [0x8#4, 0xB#4, 0xC#4, 0xF#4] then
      decodeWord w = .ok (mk {
        r := w.extractLsb' 21 6, x := w.extractLsb' 15 6, y := w.extractLsb' 9 6,
        c := CmpMode.ofBits (w.extractLsb' 0 4) })
    else RaisesIllegal w

/-- Every word with opcode `op` is read as the format J instruction `mk` (R75), unless its reserved bit is not 0 (R87) or
its mode is undefined (R81). -/
def ReadsFormatJ (op : BitVec 5) (mk : FormatJ → Instr) : Prop :=
  ∀ w : Word, w.extractLsb' 27 5 = op →
    if w.getLsbD 4 = false ∧ w.extractLsb' 0 4 ∉ [0x8#4, 0xB#4, 0xC#4, 0xF#4] then
      decodeWord w = .ok (mk {
        r := w.extractLsb' 21 6, x := w.extractLsb' 15 6, j := w.extractLsb' 5 10,
        c := CmpMode.ofBits (w.extractLsb' 0 4) })
    else RaisesIllegal w

/-- Every word with opcode `op` is read as the format M instruction `mk` (R77), unless its shift mode is reserved (R83). -/
def ReadsFormatM (op : BitVec 5) (mk : FormatM → Instr) : Prop :=
  ∀ w : Word, w.extractLsb' 27 5 = op →
    if w.extractLsb' 5 2 ≠ 0b11#2 then
      decodeWord w = .ok (mk {
        r := w.extractLsb' 21 6, x := w.extractLsb' 15 6, y := w.extractLsb' 9 6,
        blend := BlendMode.ofBits (w.extractLsb' 7 2), shift := ShiftMode.ofBits (w.extractLsb' 5 2),
        s := w.extractLsb' 0 5 })
    else RaisesIllegal w

/-- The words R90 lists: those that raise `IllegalInstruction` at decode. -/
def IllegalWord (w : Word) : Prop :=
  w.extractLsb' 27 5 ∈ [0x03#5, 0x07#5, 0x0d#5, 0x0e#5, 0x0f#5, 0x14#5, 0x15#5, 0x16#5, 0x1c#5] ∨
  (w.extractLsb' 27 5 ∈ [0x12#5, 0x13#5] ∧ (w.extractLsb' 4 5 ≠ 0#5 ∨ w.extractLsb' 0 4 ∈ [0x8#4, 0xB#4, 0xC#4, 0xF#4])) ∨
  (w.extractLsb' 27 5 = 0x17#5 ∧ (w.getLsbD 4 = true ∨ w.extractLsb' 0 4 ∈ [0x8#4, 0xB#4, 0xC#4, 0xF#4])) ∨
  (w.extractLsb' 27 5 = 0x0c#5 ∧ w.extractLsb' 5 2 = 0b11#2)

/-! ### Conditions -/

/-- The table of R79 read as numbers: unsigned where Sign is 0, signed where it is 1. False in the undefined modes, which
no statement uses it for. -/
def CondHolds (c : CmpMode) (src1 src2 : Word) : Prop :=
  match c with
  | .nz => src2.toNat ≠ 0
  | .le => src1.toNat ≤ src2.toNat
  | .lt => src1.toNat < src2.toNat
  | .eq => src1.toNat = src2.toNat
  | .az => src2.toNat = 0
  | .gt => src1.toNat > src2.toNat
  | .ge => src1.toNat ≥ src2.toNat
  | .ne => src1.toNat ≠ src2.toNat
  | .sle => src1.toInt ≤ src2.toInt
  | .slt => src1.toInt < src2.toInt
  | .sgt => src1.toInt > src2.toInt
  | .sge => src1.toInt ≥ src2.toInt
  | .x3 | .x4 | .x5 | .x6 => False

/-! ### What an instruction reads, writes and can raise -/

/-- The registers an instruction reads, beside the IP (R22). -/
def reads : Instr → List RegIdx
  | .ldb f | .ldh f | .ldw f => [f.x, f.y]
  | .stb f | .sth f | .stw f => [f.x, f.y, f.r]
  | .add f | .mul f | .div f | .nor f => [f.x, f.y]
  | .mask f => if f.blend = .mov then [f.y] else [f.x, f.y]
  | .movi _ => []
  | .addi f => [f.r]
  | .cmov f | .cmp f => [f.x, f.y]
  | .cjmp f => [f.x, f.r]
  | .inPort f => [f.x, f.y]
  | .outPort f => [f.x, f.y, f.r]
  | .dskr f | .dskw f => [f.r, f.x, f.y]
  | .sys _ => [62, 63]
  | .iret _ | .halt _ => []
  | .lde _ | .ste _ | .alu5 _ | .alu6 _ | .alu7 _ | .mov4 _ | .mov5 _ | .mov6 _ | .sys0 _ => []

/-- The registers an instruction may write, beside the increment of the IP at the fetch (R22). -/
def writes : Instr → List RegIdx
  | .ldb f | .ldh f | .ldw f => [f.r]
  | .stb _ | .sth _ | .stw _ => []
  | .add f | .mul f | .div f | .nor f => [f.r]
  | .mask f => [f.r]
  | .movi f | .addi f => [f.r]
  | .cmov f | .cmp f => [f.r]
  | .cjmp _ => [63]
  | .inPort f => [f.r]
  | .outPort _ | .dskr _ | .dskw _ => []
  | .sys _ => [63]
  | .iret _ => [62, 63]
  | .halt _ => []
  | .lde _ | .ste _ | .alu5 _ | .alu6 _ | .alu7 _ | .mov4 _ | .mov5 _ | .mov6 _ | .sys0 _ => []

/-- The codes of the faults a well-formed instruction can raise once it is decoded (R201, R202). -/
def mayRaise : Instr → List Nat
  | .ldb _ => [5]
  | .ldh _ | .ldw _ => [4, 5]
  | .stb _ => [7]
  | .sth _ | .stw _ => [6, 7]
  | .add _ | .mul _ | .nor _ | .movi _ | .addi _ => []
  | .div _ => [8]
  | .mask _ | .cmov _ | .cmp _ | .cjmp _ => []
  | .inPort _ | .outPort _ => [9]
  | .dskr _ => [9, 7]
  | .dskw _ => [9, 5]
  | .sys _ | .iret _ | .halt _ => []
  | .lde _ | .ste _ | .alu5 _ | .alu6 _ | .alu7 _ | .mov4 _ | .mov5 _ | .mov6 _ | .sys0 _ => [1]

/-- The instructions that write memory (R30). -/
def storesToMemory : Instr → Bool
  | .stb _ | .sth _ | .stw _ | .dskr _ => true
  | .ldb _ | .ldh _ | .ldw _ | .lde _ | .ste _ | .add _ | .mul _ | .div _ | .nor _ | .mask _ | .alu5 _ | .alu6 _
  | .alu7 _ | .movi _ | .addi _ | .cmov _ | .cmp _ | .mov4 _ | .mov5 _ | .mov6 _ | .cjmp _ | .inPort _ | .outPort _
  | .dskw _ | .sys0 _ | .sys _ | .iret _ | .halt _ => false

/-- The address a fault records as the place its instruction was fetched from (R200). -/
def Fault.origin : Fault → Word
  | .illegalInstruction a0 _ | .fetchMisaligned a0 | .fetchAccess a0 | .loadMisaligned a0 _ | .loadAccess a0 _
  | .storeMisaligned a0 _ | .storeAccess a0 _ | .divideByZero a0 _ | .device a0 _ _ => a0

/-- An earlier history put before the recorded one. -/
def State.withEarlier (h : List Event) (s : State) : State :=
  { s with env := { s.env with events := h ++ s.env.events } }

/-- Answers of two runs, the second run's states got from the first's by `g`. -/
def mapNext (g : State → State) : Host.Outcome State Fault Refusal → Host.Outcome State Fault Refusal
  | .next t => .next (g t)
  | .fault r => .fault r
  | .refused r => .refused r

end Sys2Proof.Machine
end

