-- ==== Sys2Proof/Certificates/Slice0/Obligations.lean ====
section
/-! DEFINITION. The statements for the provers. Each docstring names the rule it formalises and the spec's decisions (D<n>)
that rule rests on. -/

open Sys2Proof Sys2Proof.Machine

/-! ### Encoding -/

/-- R71 to R77, R84, R85: decoding an encoded well-formed instruction gives it back. -/
def Obligations.DecodeOfEncode : Prop :=
  ∀ i : Instr, i.wf = true → decodeWord (encode i) = .ok i

/-- R84, R85: a word that decodes is the encoding of the well-formed instruction it decodes to, so no bit is dropped and no
two instructions share a word. -/
def Obligations.EncodeOfDecode : Prop :=
  ∀ (w : Word) (i : Instr), decodeWord w = .ok i → i.wf = true ∧ encode i = w

/-- R41, R70: an instruction's four bytes, laid out big-endian before any others, are read back as it; fewer than four bytes
are no instruction. -/
def Obligations.DecodeOfBytes : Prop :=
  (∀ (i : Instr) (rest : List Byte), i.wf = true → decode (encodeBytes i ++ rest) = .ok (i, rest)) ∧
  (∀ bs : List Byte, bs.length < 4 → decode bs = .error .truncated)

/-- R90: the words that raise `IllegalInstruction(w)`, exactly. -/
def Obligations.IllegalWordsExactly : Prop :=
  ∀ (s : State) (w : Word), s.Fetches w →
    (step s = .fault (.illegalInstruction s.ip w) ↔ IllegalWord w)

/-- R86, R113, R123, R143 to R145, R160 to R162, R180: a word of one of the nine reserved opcodes raises `IllegalInstruction(w)`
whatever its other bits are (D20). That the decoder reads it and the instruction raises the fault, where R85 has the decoder raise
it, is the model's choice (log entry 14, DESIGN CHOICE). -/
def Obligations.ReservedOpcodesFault : Prop :=
  ∀ (op : BitVec 5) (mk : BitVec 27 → Instr),
    (op, mk) ∈ [((0x03 : BitVec 5), Instr.lde), (0x07, Instr.ste), (0x0d, Instr.alu5), (0x0e, Instr.alu6),
      (0x0f, Instr.alu7), (0x14, Instr.mov4), (0x15, Instr.mov5), (0x16, Instr.mov6), (0x1c, Instr.sys0)] →
    (∀ (w : Word) (s : State), w.extractLsb' 27 5 = op → s.Fetches w →
      step s = .fault (.illegalInstruction (s.reg 63) w)) ∧
    ReadsOpcodeOnly op mk ∧
    ∀ (low : BitVec 27) (s : State),
      exec (mk low) s = .fault (.illegalInstruction (s.ip - 4) (encode (mk low))) ∧
      (encode (mk low)).extractLsb' 27 5 = op ∧ (encode (mk low)).extractLsb' 0 27 = low

/-- Sample words, at least one a group, decode to the instructions the spec writes beside them: the MASK word is R140's example, the
others are lines of 95_test_vectors.md part 2. -/
def Obligations.SampleWordsDecode : Prop :=
  decodeWord 0x00210704 = .ok (.ldb ⟨1, 2, 3, true, 4⟩) ∧
  decodeWord 0x302106FC = .ok (.stw ⟨1, 2, 3, false, 0xFC⟩) ∧
  decodeWord 0x402106FF = .ok (.add ⟨1, 2, 3, false, 0xFF⟩) ∧
  decodeWord 0x60830BDF = .ok (.mask ⟨4, 6, 5, .xor, .sar, 31⟩) ∧
  decodeWord 0x882ACF00 = .ok (.addi ⟨1, 0x5678, 0⟩) ∧
  decodeWord 0x9021060A = .ok (.cmov ⟨1, 2, 3, .slt⟩) ∧
  decodeWord 0xB820FFA0 = .ok (.cjmp ⟨1, 1, 0x3FD, .nz⟩) ∧
  decodeWord 0xC0210601 = .ok (.inPort ⟨1, 2, 3, false, 1⟩) ∧
  decodeWord 0xFFFFFFFF = .ok (.halt 0x7FFFFFF)

/-! ### Memory -/

/-- R45 (D9): the effective address, the IP increment and the CJMP target wrap modulo 2^32. -/
def Obligations.AddressesWrap : Prop :=
  (∀ (f : FormatR) (s : State),
    ((effectiveAddress f s).toNat : Int) = ((s.reg f.x).toNat + (s.reg f.y).toNat + f.o.toInt) % 2 ^ 32) ∧
  (∀ s : State, s.advanceIp.ip.toNat = (s.ip.toNat + 4) % 2 ^ 32) ∧
  (∀ (f : FormatJ) (s : State), ((s.ip + jumpOffset f).toNat : Int) = (s.ip.toNat + 4 * f.j.toInt) % 2 ^ 32)

/-- R47 from R42, R44, R46 (D6, D7, D8): MemRead checks alignment, then bounds, then gives the big-endian value. -/
def Obligations.MemReadIsBigEndian : Prop :=
  ∀ (s : State) (addr : Word) (n : Nat), n = 1 ∨ n = 2 ∨ n = 4 →
    if addr.toNat % n ≠ 0 then
      s.memRead .load addr n = .error (.loadMisaligned (s.ip - 4) addr) ∧
      s.memRead .fetch addr n = .error (.fetchMisaligned addr)
    else if s.cfg.memSize < addr.toNat + n then
      s.memRead .load addr n = .error (.loadAccess (s.ip - 4) addr) ∧
      s.memRead .fetch addr n = .error (.fetchAccess addr)
    else ∃ v : Word, s.memRead .load addr n = .ok v ∧ s.memRead .fetch addr n = .ok v ∧
      v.toNat = ((List.range n).map fun k => (s.mem.read (addr.toNat + k)).toNat * 2 ^ (8 * (n - 1 - k))).sum

/-- R48 from R42, R44, R46 (D6, D7, D8): MemWrite checks alignment, then bounds, then writes the low bytes big-endian and
nothing else. -/
def Obligations.MemWriteIsBigEndian : Prop :=
  ∀ (s : State) (addr v : Word) (n : Nat), n = 1 ∨ n = 2 ∨ n = 4 →
    if addr.toNat % n ≠ 0 then s.memWrite addr n v = .error (.storeMisaligned (s.ip - 4) addr)
    else if s.cfg.memSize < addr.toNat + n then s.memWrite addr n v = .error (.storeAccess (s.ip - 4) addr)
    else ∃ t, s.memWrite addr n v = .ok t ∧
      (∀ k, k < n → t.mem.read (addr.toNat + k) = v.extractLsb' (8 * (n - 1 - k)) 8) ∧
      OnlyBytes s t addr.toNat n

/-- R43 from R40, R42: a byte or halfword read sees exactly the bytes of the word written over it. -/
def Obligations.MixedWidthsShareBytes : Prop :=
  ∀ (s t : State) (a v : Word), s.memWrite a 4 v = .ok t →
    (∀ k, k < 4 → t.memRead .load (a + BitVec.ofNat 32 k) 1 =
      .ok ((v.extractLsb' (8 * (3 - k)) 8).setWidth 32)) ∧
    (∀ k, k < 2 → t.memRead .load (a + BitVec.ofNat 32 (2 * k)) 2 =
      .ok ((v.extractLsb' (16 * (1 - k)) 16).setWidth 32)) ∧
    t.memRead .load a 4 = .ok v

/-- R41: the fetched word is big-endian, so the opcode is the top five bits of the byte at the lowest address. -/
def Obligations.FetchIsBigEndian : Prop :=
  ∀ (s : State) (w : Word), s.fetch = .ok w →
    w.extractLsb' 24 8 = s.mem.read s.ip.toNat ∧ w.extractLsb' 16 8 = s.mem.read (s.ip.toNat + 1) ∧
    w.extractLsb' 8 8 = s.mem.read (s.ip.toNat + 2) ∧ w.extractLsb' 0 8 = s.mem.read (s.ip.toNat + 3) ∧
    w.extractLsb' 27 5 = (s.mem.read s.ip.toNat).extractLsb' 3 5

/-- R57 (D34): a store is seen by a later fetch from that address. -/
def Obligations.FetchSeesStores : Prop :=
  ∀ (s t : State) (f : FormatR), exec (.stw f) s = .next t →
    (t.jump (effectiveAddress f s)).fetch = .ok (s.reg f.r)

/-! ### The Load group -/

/-- R110 (D10): LDB. -/
def Obligations.LdbLoadsExtendedByte : Prop :=
  ReadsFormatR 0x00 .ldb ∧
  ∀ (f : FormatR) (s : State),
    if (effectiveAddress f s).toNat < s.cfg.memSize then
      ∃ t, exec (.ldb f) s = .next t ∧
        (if f.e then (t.reg f.r).toInt = (s.mem.read (effectiveAddress f s).toNat).toInt
          else (t.reg f.r).toNat = (s.mem.read (effectiveAddress f s).toNat).toNat) ∧
        OnlyReg s t f.r
    else exec (.ldb f) s = .fault (.loadAccess (s.ip - 4) (effectiveAddress f s))

/-- R111 (D6, D7, D10): LDH. -/
def Obligations.LdhLoadsExtendedHalfword : Prop :=
  ReadsFormatR 0x01 .ldh ∧
  ∀ (f : FormatR) (s : State),
    if (effectiveAddress f s).toNat % 2 ≠ 0 then
      exec (.ldh f) s = .fault (.loadMisaligned (s.ip - 4) (effectiveAddress f s))
    else if s.cfg.memSize < (effectiveAddress f s).toNat + 2 then
      exec (.ldh f) s = .fault (.loadAccess (s.ip - 4) (effectiveAddress f s))
    else
      ∃ (t : State) (h : BitVec 16), exec (.ldh f) s = .next t ∧
        h.toNat = (s.mem.read (effectiveAddress f s).toNat).toNat * 256 +
          (s.mem.read ((effectiveAddress f s).toNat + 1)).toNat ∧
        (if f.e then (t.reg f.r).toInt = h.toInt else (t.reg f.r).toNat = h.toNat) ∧
        OnlyReg s t f.r

/-- R112 (D6, D7): LDW. -/
def Obligations.LdwLoadsWord : Prop :=
  ReadsFormatR 0x02 .ldw ∧
  ∀ (f : FormatR) (s : State),
    if (effectiveAddress f s).toNat % 4 ≠ 0 then
      exec (.ldw f) s = .fault (.loadMisaligned (s.ip - 4) (effectiveAddress f s))
    else if s.cfg.memSize < (effectiveAddress f s).toNat + 4 then
      exec (.ldw f) s = .fault (.loadAccess (s.ip - 4) (effectiveAddress f s))
    else
      ∃ t, exec (.ldw f) s = .next t ∧
        (t.reg f.r).toNat = (s.mem.read (effectiveAddress f s).toNat).toNat * 2 ^ 24 +
          (s.mem.read ((effectiveAddress f s).toNat + 1)).toNat * 2 ^ 16 +
          (s.mem.read ((effectiveAddress f s).toNat + 2)).toNat * 2 ^ 8 +
          (s.mem.read ((effectiveAddress f s).toNat + 3)).toNat ∧
        OnlyReg s t f.r

/-! ### The Store group -/

/-- R120 (D12): STB. -/
def Obligations.StbStoresLowByte : Prop :=
  ReadsFormatR 0x04 .stb ∧
  ∀ (f : FormatR) (s : State),
    if (effectiveAddress f s).toNat < s.cfg.memSize then
      ∃ t, exec (.stb f) s = .next t ∧
        t.mem.read (effectiveAddress f s).toNat = (s.reg f.r).extractLsb' 0 8 ∧
        OnlyBytes s t (effectiveAddress f s).toNat 1
    else exec (.stb f) s = .fault (.storeAccess (s.ip - 4) (effectiveAddress f s))

/-- R121 (D6, D7, D12): STH. -/
def Obligations.SthStoresLowHalfword : Prop :=
  ReadsFormatR 0x05 .sth ∧
  ∀ (f : FormatR) (s : State),
    if (effectiveAddress f s).toNat % 2 ≠ 0 then
      exec (.sth f) s = .fault (.storeMisaligned (s.ip - 4) (effectiveAddress f s))
    else if s.cfg.memSize < (effectiveAddress f s).toNat + 2 then
      exec (.sth f) s = .fault (.storeAccess (s.ip - 4) (effectiveAddress f s))
    else
      ∃ t, exec (.sth f) s = .next t ∧
        t.mem.read (effectiveAddress f s).toNat = (s.reg f.r).extractLsb' 8 8 ∧
        t.mem.read ((effectiveAddress f s).toNat + 1) = (s.reg f.r).extractLsb' 0 8 ∧
        OnlyBytes s t (effectiveAddress f s).toNat 2

/-- R122 (D6, D7, D12): STW. -/
def Obligations.StwStoresWord : Prop :=
  ReadsFormatR 0x06 .stw ∧
  ∀ (f : FormatR) (s : State),
    if (effectiveAddress f s).toNat % 4 ≠ 0 then
      exec (.stw f) s = .fault (.storeMisaligned (s.ip - 4) (effectiveAddress f s))
    else if s.cfg.memSize < (effectiveAddress f s).toNat + 4 then
      exec (.stw f) s = .fault (.storeAccess (s.ip - 4) (effectiveAddress f s))
    else
      ∃ t, exec (.stw f) s = .next t ∧
        t.mem.read (effectiveAddress f s).toNat = (s.reg f.r).extractLsb' 24 8 ∧
        t.mem.read ((effectiveAddress f s).toNat + 1) = (s.reg f.r).extractLsb' 16 8 ∧
        t.mem.read ((effectiveAddress f s).toNat + 2) = (s.reg f.r).extractLsb' 8 8 ∧
        t.mem.read ((effectiveAddress f s).toNat + 3) = (s.reg f.r).extractLsb' 0 8 ∧
        OnlyBytes s t (effectiveAddress f s).toNat 4

/-! ### The ALU1 group -/

/-- R130, R134 (D9, D11): ADD. -/
def Obligations.AddWrapsSum : Prop :=
  ReadsFormatR 0x08 .add ∧
  ∀ (f : FormatR) (s : State), ∃ t, exec (.add f) s = .next t ∧
    ((t.reg f.r).toNat : Int) = ((s.reg f.x).toNat + operandB f s) % 2 ^ 32 ∧ OnlyReg s t f.r

/-- R131, R134 (D13): MUL keeps the low 32 bits, the same under both readings of the operands. -/
def Obligations.MulKeepsLowWord : Prop :=
  ReadsFormatR 0x09 .mul ∧
  ∀ (f : FormatR) (s : State), ∃ t, exec (.mul f) s = .next t ∧
    ((t.reg f.r).toNat : Int) = ((s.reg f.x).toNat * operandB f s) % 2 ^ 32 ∧
    ((t.reg f.r).toNat : Int) = ((s.reg f.x).toInt * (offsetSum f s).toInt) % 2 ^ 32 ∧
    OnlyReg s t f.r

/-- R132, R134 (D14): DIV faults on a zero divisor, also when the offset makes it zero; otherwise it writes `Div32`, by default the
unsigned truncated quotient, and else a free function of the operands, the model's choice (log entry 8, DESIGN CHOICE). -/
def Obligations.DivDividesOrFaults : Prop :=
  ReadsFormatR 0x0a .div ∧
  ∀ (f : FormatR) (s : State),
    if operandB f s = 0 then exec (.div f) s = .fault (.divideByZero (s.ip - 4) (encode (.div f)))
    else ∃ t, exec (.div f) s = .next t ∧ OnlyReg s t f.r ∧
      (match s.cfg.div32 with
        | .unsignedTruncating => ((t.reg f.r).toNat : Int) = (s.reg f.x).toNat / operandB f s
        | .unstated => t.reg f.r = Config.freeDiv (s.reg f.x) (BitVec.ofInt 32 (operandB f s)))

/-- R133 (D11): NOR, bit by bit; the offset's bit 7 stands in bits 8 to 31. -/
def Obligations.NorIsBitwise : Prop :=
  ReadsFormatR 0x0b .nor ∧
  ∀ (f : FormatR) (s : State), ∃ t, exec (.nor f) s = .next t ∧ OnlyReg s t f.r ∧
    ∀ k, k < 32 → (t.reg f.r).getLsbD k =
      !((s.reg f.x).getLsbD k || (s.reg f.y).getLsbD k || f.o.getLsbD (min k 7))

/-! ### The ALU2 group -/

/-- R140, R141, R142 (C4, D15, D16): MASK blends `x[f.x]` with the shifted `x[f.y]`; the modes are numbered as R82 and R83
say. -/
def Obligations.MaskBlendsShifted : Prop :=
  ReadsFormatM 0x0c .mask ∧
  List.map BlendMode.ofBits [0, 1, 2, 3] = [.mov, .and, .or, .xor] ∧
  List.map ShiftMode.ofBits [0, 1, 2, 3] = [.shl, .shr, .sar, .x1] ∧
  ∀ (f : FormatM) (s : State),
    if f.shift = .x1 then exec (.mask f) s = .fault (.illegalInstruction (s.ip - 4) (encode (.mask f)))
    else ∃ (t : State) (m : Word), exec (.mask f) s = .next t ∧ OnlyReg s t f.r ∧
      (f.shift = .shl → m.toNat = (s.reg f.y).toNat * 2 ^ f.s.toNat % 2 ^ 32) ∧
      (f.shift = .shr → m.toNat = (s.reg f.y).toNat / 2 ^ f.s.toNat) ∧
      (f.shift = .sar → m.toInt = (s.reg f.y).toInt / 2 ^ f.s.toNat) ∧
      (f.blend = .mov → t.reg f.r = m) ∧
      (∀ k, k < 32 →
        (f.blend = .and → (t.reg f.r).getLsbD k = ((s.reg f.x).getLsbD k && m.getLsbD k)) ∧
        (f.blend = .or → (t.reg f.r).getLsbD k = ((s.reg f.x).getLsbD k || m.getLsbD k)) ∧
        (f.blend = .xor → (t.reg f.r).getLsbD k = ((s.reg f.x).getLsbD k != m.getLsbD k)))

/-! ### The MOV1 group -/

/-- R150 (D17): MOVI. -/
def Obligations.MoviWritesShiftedBase : Prop :=
  ReadsFormatI 0x10 .movi ∧
  ∀ (f : FormatI) (s : State), ∃ t, exec (.movi f) s = .next t ∧
    (t.reg f.r).toNat = immediateValue f ∧ OnlyReg s t f.r

/-- R151 (D9, D17): ADDI. -/
def Obligations.AddiAddsShiftedBase : Prop :=
  ReadsFormatI 0x11 .addi ∧
  ∀ (f : FormatI) (s : State), ∃ t, exec (.addi f) s = .next t ∧
    (t.reg f.r).toNat = ((s.reg f.r).toNat + immediateValue f) % 2 ^ 32 ∧ OnlyReg s t f.r

/-- R152 (D18, D19, D44): CMOV. -/
def Obligations.CmovMovesWhenHolds : Prop :=
  ReadsFormatC 0x12 .cmov ∧
  ∀ (f : FormatC) (s : State),
    if f.c ∈ [.x3, .x4, .x5, .x6] then
      exec (.cmov f) s = .fault (.illegalInstruction (s.ip - 4) (encode (.cmov f)))
    else ∃ t, exec (.cmov f) s = .next t ∧
      (CondHolds f.c (s.reg f.x) (s.reg f.y) → t.reg f.r = s.reg f.x ∧ OnlyReg s t f.r) ∧
      (¬CondHolds f.c (s.reg f.x) (s.reg f.y) → t = s)

/-- R153 (D18, D19, D44): CMP. -/
def Obligations.CmpWritesTruthValue : Prop :=
  ReadsFormatC 0x13 .cmp ∧
  ∀ (f : FormatC) (s : State),
    if f.c ∈ [.x3, .x4, .x5, .x6] then
      exec (.cmp f) s = .fault (.illegalInstruction (s.ip - 4) (encode (.cmp f)))
    else ∃ t, exec (.cmp f) s = .next t ∧ OnlyReg s t f.r ∧
      (CondHolds f.c (s.reg f.x) (s.reg f.y) → t.reg f.r = 1) ∧
      (¬CondHolds f.c (s.reg f.x) (s.reg f.y) → t.reg f.r = 0)

/-! ### The MOV2 group and the conditions -/

/-- R163 (D4, D9, D18, D19, D21): CJMP. -/
def Obligations.CjmpJumpsWhenHolds : Prop :=
  ReadsFormatJ 0x17 .cjmp ∧
  ∀ (f : FormatJ) (s : State),
    if f.c ∈ [.x3, .x4, .x5, .x6] then
      exec (.cjmp f) s = .fault (.illegalInstruction (s.ip - 4) (encode (.cjmp f)))
    else ∃ t, exec (.cjmp f) s = .next t ∧
      (CondHolds f.c (s.reg f.x) (s.reg f.r) →
        ((t.reg 63).toNat : Int) = ((s.reg 63).toNat + 4 * f.j.toInt) % 2 ^ 32 ∧ OnlyReg s t 63) ∧
      (¬CondHolds f.c (s.reg f.x) (s.reg f.r) → t = s)

/-- R79: the 16 values of the `c` field by name; the twelve defined ones mean what the table says, over all 32 bits (D44); the
subfields Sign, Negation and Mode, a negated row the negation of the row without; the four undefined ones have no truth
value (D18). -/
def Obligations.CondFollowsTable : Prop :=
  (List.map CmpMode.ofBits [0x0, 0x1, 0x2, 0x3, 0x4, 0x5, 0x6, 0x7, 0x8, 0x9, 0xA, 0xB, 0xC, 0xD, 0xE, 0xF] =
    [.nz, .le, .lt, .eq, .az, .gt, .ge, .ne, .x3, .sle, .slt, .x4, .x5, .sgt, .sge, .x6]) ∧
  (∀ (c : CmpMode) (src1 src2 : Word),
    (c ∈ [.x3, .x4, .x5, .x6] → condition c src1 src2 = none) ∧
    (c ∉ [.x3, .x4, .x5, .x6] → ∃ b, condition c src1 src2 = some b ∧ (b = true ↔ CondHolds c src1 src2))) ∧
  ∀ (b : BitVec 4) (src1 src2 : Word),
    let sign := b.getLsbD 3
    let negation := b.getLsbD 2
    let mode := b.extractLsb' 0 2
    condition (CmpMode.ofBits b) src1 src2 =
      if sign = true ∧ (mode = 0b00 ∨ mode = 0b11) then none
      else some (negation != (
        if mode = 0b00 then decide (src2.toNat ≠ 0)
        else if mode = 0b01 then (if sign then decide (src1.toInt ≤ src2.toInt) else decide (src1.toNat ≤ src2.toNat))
        else if mode = 0b10 then (if sign then decide (src1.toInt < src2.toInt) else decide (src1.toNat < src2.toNat))
        else decide (src1.toNat = src2.toNat)))

/-- R98 (D35): the three pseudo-instructions and the two words that do nothing. -/
def Obligations.PseudoInstructionsExpand : Prop :=
  (∀ (d r : RegIdx) (s : State), ∃ t, exec (.cmov ⟨d, r, r, .eq⟩) s = .next t ∧ t.reg d = s.reg r ∧ OnlyReg s t d) ∧
  (∀ (j : BitVec 10) (s : State), ∃ t, exec (.cjmp ⟨63, 63, j, .eq⟩) s = .next t ∧
    ((t.reg 63).toNat : Int) = ((s.reg 63).toNat + 4 * j.toInt) % 2 ^ 32 ∧ OnlyReg s t 63) ∧
  (∀ (d r : RegIdx) (s : State), ∃ t, exec (.nor ⟨d, r, r, false, 0⟩) s = .next t ∧ t.reg d = ~~~(s.reg r) ∧
    OnlyReg s t d) ∧
  (∀ (s : State) (w : Word), w = 0xBFFF8007 ∨ w = 0xBFFF8003 →
    ∃ i, decodeWord w = .ok i ∧ exec i s = .next s)

/-! ### The IO group -/

/-- R172 (D11, D23): IN writes the environment's answer, whatever it is, and records the call with it. -/
def Obligations.InReadsPort : Prop :=
  ReadsFormatR 0x18 .inPort ∧
  ∀ (f : FormatR) (s : State) (port : Word), (port.toNat : Int) = operandB f s →
    if s.devicePresent (s.reg f.x) = true then
      ∃ (t : State) (v : Word), exec (.inPort f) s = .next t ∧ t.reg f.r = v ∧
        t.env.events = s.env.events ++ [.portIn (s.reg f.x) port v] ∧
        t.env.irqLevels = s.env.irqLevels ∧ t.env.diskBytes = s.env.diskBytes ∧
        (∀ k, k ≠ f.r → t.reg k = s.reg k) ∧ SameMemory s t ∧ SameSystem s t
    else exec (.inPort f) s = .fault (.device (s.ip - 4) (s.reg f.x) port)

/-- R173 (D11, D23): OUT records the whole register; no register and no memory is written. -/
def Obligations.OutWritesPort : Prop :=
  ReadsFormatR 0x19 .outPort ∧
  ∀ (f : FormatR) (s : State) (port : Word), (port.toNat : Int) = operandB f s →
    if s.devicePresent (s.reg f.x) = true then
      ∃ t, exec (.outPort f) s = .next t ∧ RecordsOnly s t (.portOut (s.reg f.x) port (s.reg f.r)) ∧
        SameRegs s t ∧ SameMemory s t ∧ SameSystem s t
    else exec (.outPort f) s = .fault (.device (s.ip - 4) (s.reg f.x) port)

/-- R174 (D22, D24): DSKR moves a block of the environment's bytes to memory, byte `k` to `base + k`, and records the call;
the device is checked before memory. -/
def Obligations.DskrReadsBlock : Prop :=
  ReadsFormatR 0x1a .dskr ∧
  ∀ (f : FormatR) (s : State),
    if s.devicePresent (s.reg f.y) = false then
      exec (.dskr f) s = .fault (.device (s.ip - 4) (s.reg f.y) (s.reg f.x))
    else if s.cfg.memSize < (s.reg f.r).toNat + s.cfg.diskBlockSize then
      exec (.dskr f) s = .fault (.storeAccess (s.ip - 4) (s.reg f.r))
    else ∃ (t : State) (bytes : List Byte), exec (.dskr f) s = .next t ∧ bytes.length = s.cfg.diskBlockSize ∧
      (∀ k, k < bytes.length → some (t.mem.read ((s.reg f.r).toNat + k)) = bytes[k]?) ∧
      (∀ a, ¬((s.reg f.r).toNat ≤ a ∧ a < (s.reg f.r).toNat + bytes.length) → t.mem.read a = s.mem.read a) ∧
      t.env.events = s.env.events ++ [.diskRead (s.reg f.y) (s.reg f.x) bytes] ∧
      t.env.irqLevels = s.env.irqLevels ∧ t.env.inAnswers = s.env.inAnswers ∧
      SameRegs s t ∧ SameSystem s t

/-- R175 (D22, D24): DSKW records the block's bytes; no register and no memory is written. -/
def Obligations.DskwWritesBlock : Prop :=
  ReadsFormatR 0x1b .dskw ∧
  ∀ (f : FormatR) (s : State),
    if s.devicePresent (s.reg f.y) = false then
      exec (.dskw f) s = .fault (.device (s.ip - 4) (s.reg f.y) (s.reg f.x))
    else if s.cfg.memSize < (s.reg f.r).toNat + s.cfg.diskBlockSize then
      exec (.dskw f) s = .fault (.loadAccess (s.ip - 4) (s.reg f.r))
    else ∃ (t : State) (bytes : List Byte), exec (.dskw f) s = .next t ∧ bytes.length = s.cfg.diskBlockSize ∧
      (∀ k, k < bytes.length → bytes[k]? = some (s.mem.read ((s.reg f.r).toNat + k))) ∧
      RecordsOnly s t (.diskWrite (s.reg f.y) (s.reg f.x) bytes) ∧
      SameRegs s t ∧ SameMemory s t ∧ SameSystem s t

/-! ### The SYS group and traps -/

/-- R210 (D3, D25, D26, D27): what trap entry does, for both causes. -/
def Obligations.TrapEntrySavesAndVectors : Prop :=
  ∀ (s : State) (cause : TrapCause),
    TrapTaken s (s.trapEntry cause) (if cause = .sys then s.cfg.sysVector else s.cfg.irqVector) ∧
    (s.trapEntry cause).env = s.env

/-- R181, R210 (D3, D25, D26, D27): SYS is `TrapEntry(SYS)` whatever `IE` is. -/
def Obligations.SysEntersTrap : Prop :=
  ReadsOpcodeOnly 0x1d .sys ∧
  ∀ (low : BitVec 27) (s : State), ∃ t, exec (.sys low) s = .next t ∧ TrapTaken s t s.cfg.sysVector ∧ t.env = s.env

/-- R182 (D26, D36): IRET. -/
def Obligations.IretRestoresAndEnables : Prop :=
  ReadsOpcodeOnly 0x1e .iret ∧
  ∀ (low : BitVec 27) (s : State), ∃ t, exec (.iret low) s = .next t ∧
    t.reg 62 = s.s62 ∧ t.reg 63 = s.s63 ∧ t.ie = true ∧ t.s62 = s.s62 ∧ t.s63 = s.s63 ∧
    (∀ k, k ≠ 62 → k ≠ 63 → t.reg k = s.reg k) ∧ SameMemory s t ∧
    t.halted = s.halted ∧ t.cfg = s.cfg ∧ t.env = s.env

/-- R183 (D31): HALT, and that the halted machine takes no further step, an asserted request or not (the model answers the same state,
log entry 10). -/
def Obligations.HaltIsFinal : Prop :=
  ReadsOpcodeOnly 0x1f .halt ∧
  ∀ (low : BitVec 27) (s : State), ∃ t, exec (.halt low) s = .next t ∧
    t.halted = true ∧ SameRegs s t ∧ SameMemory s t ∧ t.ie = s.ie ∧ t.s62 = s.s62 ∧ t.s63 = s.s63 ∧
    t.cfg = s.cfg ∧ t.env = s.env ∧ step t = .next t

/-- R206, R209, R210 (D28, D42): an asserted and enabled request wins over the instruction at `x[63]`: the step is
`TrapEntry(IRQ)` and nothing else. -/
def Obligations.InterruptWinsOverInstruction : Prop :=
  ∀ s : State, s.halted = false → s.ie = true → s.irqAsserted = true →
    ∃ t, step s = .next t ∧ TrapTaken s t s.cfg.irqVector ∧ t.env.events = s.env.events

/-- The model's environment (log entries 5, 6, 7, DESIGN CHOICE) under R205 and R170: without the line nothing is asserted, and with
`IE = 0` no interrupt is taken; the line's level, the value of an IN and the bytes of a DSKR are the next ones laid down,
each used once, a level by every step of a running machine. -/
def Obligations.EnvironmentAnswersInOrder : Prop :=
  (∀ s : State, s.cfg.hasIrq = false → s.irqAsserted = false) ∧
  (∀ s : State, s.ie = false → ¬s.Interrupts) ∧
  (∀ (s : State) (b : Bool) (rest : List Bool), s.cfg.hasIrq = true → s.env.irqLevels = b :: rest →
    s.irqAsserted = b ∧ ∀ t, s.halted = false → step s = .next t → t.env.irqLevels = rest) ∧
  (∀ (f : FormatR) (s : State) (v : Word) (rest : List Word), s.devicePresent (s.reg f.x) = true →
    s.env.inAnswers = v :: rest →
    ∃ t, exec (.inPort f) s = .next t ∧ t.reg f.r = v ∧ t.env.inAnswers = rest) ∧
  (∀ (f : FormatR) (s : State), s.devicePresent (s.reg f.y) = true →
    (s.reg f.r).toNat + s.cfg.diskBlockSize ≤ s.cfg.memSize → s.cfg.diskBlockSize ≤ s.env.diskBytes.length →
    ∃ t, exec (.dskr f) s = .next t ∧ t.env.diskBytes = s.env.diskBytes.drop s.cfg.diskBlockSize ∧
      ∀ k, k < s.cfg.diskBlockSize → some (t.mem.read ((s.reg f.r).toNat + k)) = s.env.diskBytes[k]?)

/-- R181, R182, R213: a handler that leaves the save registers alone returns to the instruction after the SYS with `x[62]` as it
was and `IE = 1`, whatever else it did. -/
def Obligations.TrapRoundTrip : Prop :=
  ∀ (low low' : BitVec 27) (s h t u : State), exec (.sys low) s = .next t →
    h.s62 = t.s62 → h.s63 = t.s63 → exec (.iret low') h = .next u →
    u.ip = s.ip ∧ u.reg 62 = s.reg 62 ∧ u.ie = true ∧ ∀ k, k ≠ 62 → k ≠ 63 → u.reg k = h.reg k

/-! ### The step -/

/-- R244: a step that executes `i` is `exec i` after the line has been read and the IP incremented, and those two change
nothing else. Where `exec` begins is the model's choice (log entry 13, DESIGN CHOICE). -/
def Obligations.StepRunsDecoded : Prop :=
  ∀ (s : State) (i : Instr), s.Executes i →
    step s = exec i s.afterIrqRead.advanceIp ∧
    s.afterIrqRead.advanceIp.reg 63 = s.reg 63 + 4 ∧
    (∀ k, k ≠ 63 → s.afterIrqRead.advanceIp.reg k = s.reg k) ∧
    s.afterIrqRead.advanceIp.mem = s.mem ∧ SameSystem s s.afterIrqRead.advanceIp ∧
    s.afterIrqRead.advanceIp.env.events = s.env.events

/-- R208 checks 1 to 4 and 6 (D37, D42): what a step does that executes no instruction. Check 1 says 'no step'; that a step of a
halted machine answers the same state is the model's choice (log entry 10, DESIGN CHOICE). -/
def Obligations.StepChecksInOrder : Prop :=
  ∀ s : State,
    (s.halted = true → step s = .next s) ∧
    (s.halted = false → s.takesIrq = false → (s.reg 63).toNat % 4 ≠ 0 → step s = .fault (.fetchMisaligned (s.reg 63))) ∧
    (s.halted = false → s.takesIrq = false → (s.reg 63).toNat % 4 = 0 → s.cfg.memSize < (s.reg 63).toNat + 4 →
      step s = .fault (.fetchAccess (s.reg 63))) ∧
    (s.halted = false → s.takesIrq = false → (s.reg 63).toNat % 4 = 0 → (s.reg 63).toNat + 4 ≤ s.cfg.memSize →
      ∃ w, s.Fetches w ∧
        (step s = .fault (.illegalInstruction (s.reg 63) w) ∨ ∃ i, s.Executes i))

/-- R24 (D4): an instruction that does not write `x[63]` is followed by the one at `a + 4`. -/
def Obligations.NextInSequence : Prop :=
  ∀ (s t : State) (i : Instr), s.Executes i → (63 : RegIdx) ∉ writes i → step s = .next t → t.reg 63 = s.reg 63 + 4

/-- Log entry 16: the state `withFetchWord` makes executes, in its very next step, the instruction put there. -/
def Obligations.FetchWordIsExecuted : Prop :=
  ∀ (s : State) (i : Instr), i.wf = true → s.ip.toNat % 4 = 0 → s.ip.toNat + 4 ≤ s.cfg.memSize →
    (s.withFetchWord 32 (encode i).toNat).Executes i

/-! ### Faults -/

/-- R202: which instruction can raise which fault, once decoded. -/
def Obligations.FaultsAsTabled : Prop :=
  ∀ (i : Instr) (s : State) (r : Fault), i.wf = true → exec i s = .fault r → r.code ∈ mayRaise i

/-- R200 (D29): every fault of a step records the address the instruction was fetched from, or of the attempted fetch. The model
computes it as `x[63] - 4` (log entry 12, DEDUCED). -/
def Obligations.FaultsRecordOrigin : Prop :=
  ∀ (s : State) (r : Fault), step s = .fault r → r.origin = s.reg 63

/-- 93_implementation_defined.md, end of part 1: every word decodes or is illegal and every instruction completes or faults, so no step is
refused; and the instructions R202 gives no fault complete in every state. -/
def Obligations.NoStepIsRefused : Prop :=
  (∀ (s : State) (r : Refusal), step s ≠ .refused r) ∧
  (∀ (i : Instr) (s : State), i.wf = true → mayRaise i = [] → ∃ t, exec i s = .next t)

/-! ### Invariants and whole-machine rules -/

/-- The parameters meet R6, memory is canonical and inside `MEM_SIZE`: every step keeps it. -/
def Obligations.StepKeepsInvariant : Prop :=
  ∀ s t : State, s.Inv → step s = .next t → t.Inv

/-- The invariant holds right after reset on every platform that meets R6, and in `State.reset`, on the platform the model chose (log
entry 2, DESIGN CHOICE). -/
def Obligations.ResetMeetsInvariant : Prop :=
  (∀ (cfg : Config) (x : Vector Word 64) (s62 s63 : Word) (mem : Memory) (env : Env), cfg.wf → mem.wf →
    (∀ c ∈ mem, c.1 < cfg.memSize) → (State.afterReset cfg x s62 s63 mem env).Inv) ∧ State.reset.Inv

/-- R33 (D32): reset sets the IP, `IE` and `halted`, and leaves the other registers, the save registers, memory and the
environment as they may be; the first word fetched is the one at `RESET_VECTOR`. -/
def Obligations.ResetSetsIpIeHalted : Prop :=
  ∀ (cfg : Config) (x : Vector Word 64) (s62 s63 : Word) (mem : Memory) (env : Env),
    let s := State.afterReset cfg x s62 s63 mem env
    s.reg 63 = cfg.resetVector ∧ s.ie = cfg.resetIE ∧ s.halted = false ∧
    (∀ k : RegIdx, k ≠ 63 → s.reg k = x[k.toNat]'k.isLt) ∧ s.s62 = s62 ∧ s.s63 = s63 ∧ s.mem = mem ∧
    s.env = env ∧ s.cfg = cfg ∧ s.fetch = s.memRead .fetch cfg.resetVector 4

/-- R6, R212 (D27): the parameters are no registers and no step moves one of them. -/
def Obligations.ParametersNeverChange : Prop :=
  ∀ s t : State, step s = .next t → t.cfg = s.cfg

/-- R26, R207 (D26, D27): `IE` is set only by IRET and cleared only by trap entry. -/
def Obligations.IeChangesOnlyByTraps : Prop :=
  ∀ s t : State, step s = .next t → t.ie ≠ s.ie →
    (t.ie = true ∧ ∃ low, s.Executes (.iret low)) ∨
    (t.ie = false ∧ (s.Interrupts ∨ ∃ low, s.Executes (.sys low)))

/-- R28, R245 (D31): only HALT halts, and nothing leaves the halted state: its step answers the same state, the model's choice for
'no step' (log entry 10, DESIGN CHOICE). -/
def Obligations.OnlyHaltHalts : Prop :=
  ∀ s t : State, step s = .next t →
    (t.halted = true → s.halted = true ∨ ∃ low, s.Executes (.halt low)) ∧
    (s.halted = true → t = s)

/-- R27 (D26): only trap entry writes the save registers, with `x[62]` and the address of the next instruction. -/
def Obligations.SaveRegistersOnlyByTraps : Prop :=
  ∀ s t : State, step s = .next t → (t.s62 ≠ s.s62 ∨ t.s63 ≠ s.s63) →
    t.s62 = s.reg 62 ∧
    ((s.Interrupts ∧ t.s63 = s.reg 63) ∨ ((∃ low, s.Executes (.sys low)) ∧ t.s63 = s.reg 63 + 4))

/-- R22, the column of writes: no register changes that the table does not name. -/
def Obligations.RegistersWrittenAsTabled : Prop :=
  ∀ (i : Instr) (s t : State), exec i s = .next t → ∀ k, k ∉ writes i → t.reg k = s.reg k

/-- R22, the column of reads: a register an instruction neither reads nor writes makes no difference to it. -/
def Obligations.OtherRegistersMakeNoDifference : Prop :=
  ∀ (i : Instr) (s : State) (k : RegIdx) (v : Word), k ≠ 63 → k ∉ reads i → k ∉ writes i →
    exec i (s.setReg k v) = mapNext (fun t => t.setReg k v) (exec i s)

/-- R30, R50: memory changes only by the stores and DSKR, and never by an interrupt entry. -/
def Obligations.MemoryChangesOnlyByStores : Prop :=
  ∀ s t : State, step s = .next t → (∃ a, t.mem.read a ≠ s.mem.read a) →
    ∃ i, s.Executes i ∧ storesToMemory i = true

/-- R54, R170 (D33): a step records at most one call, at the end of the history, and only IN, OUT, DSKR and DSKW record
one. That the history is a field of State is the model's choice (log entry 11, DESIGN CHOICE). -/
def Obligations.HistoryOnlyGrows : Prop :=
  ∀ s t : State, step s = .next t →
    t.env.events = s.env.events ∨
    ∃ ev i, t.env.events = s.env.events ++ [ev] ∧ s.Executes i ∧
      i.opcode ∈ [.inPort, .outPort, .dskr, .dskw]

/-- R32, R170: the recorded history is never read back: an earlier history put before it changes nothing of a step but
itself. That the history is a field of State is the model's choice (log entry 11, DESIGN CHOICE). -/
def Obligations.HistoryIsNeverRead : Prop :=
  ∀ (h : List Event) (s : State), step (s.withEarlier h) = mapNext (State.withEarlier h) (step s)
end

