-- ==== Sys2Proof/Laws/Encoding.lean ====
section
/-! SUPPORT. The fields of a laid out word read back as they were, format by format, and the words of the table's values. -/

namespace Sys2Proof

/-! ### Values of fields -/

@[simp] theorem Opcode.ofBits_bits (o : Opcode) : Opcode.ofBits o.bits = o := by cases o <;> rfl
@[simp] theorem CmpMode.ofBits_bits (c : CmpMode) : CmpMode.ofBits c.bits = c := by cases c <;> rfl
@[simp] theorem BlendMode.ofBits_bits (b : BlendMode) : BlendMode.ofBits b.bits = b := by cases b <;> rfl
@[simp] theorem ShiftMode.ofBits_bits (m : ShiftMode) : ShiftMode.ofBits m.bits = m := by cases m <;> rfl

@[simp] theorem Opcode.bits_ofBits (b : BitVec 5) : (Opcode.ofBits b).bits = b := by revert b; decide
@[simp] theorem CmpMode.bits_ofBits (b : BitVec 4) : (CmpMode.ofBits b).bits = b := by revert b; decide
@[simp] theorem BlendMode.bits_ofBits (b : BitVec 2) : (BlendMode.ofBits b).bits = b := by revert b; decide
@[simp] theorem ShiftMode.bits_ofBits (b : BitVec 2) : (ShiftMode.ofBits b).bits = b := by revert b; decide

/-! ### The opcode of a laid out word -/

@[simp] theorem opcodeOf_wordOfLow (op : Opcode) (low : BitVec 27) : opcodeOf (wordOfLow op low) = op := by
  have h : (wordOfLow op low).extractLsb' 27 5 = op.bits := by
    ext i hi; simp [wordOfLow]; grind
  rw [opcodeOf, h, Opcode.ofBits_bits]

@[simp] theorem FormatR.opcodeOf_toWord (op : Opcode) (f : FormatR) : opcodeOf (f.toWord op) = op := by
  have h : (f.toWord op).extractLsb' 27 5 = op.bits := by
    ext i hi; simp [FormatR.toWord]; grind
  rw [opcodeOf, h, Opcode.ofBits_bits]

@[simp] theorem FormatC.opcodeOf_toWord (op : Opcode) (f : FormatC) : opcodeOf (f.toWord op) = op := by
  have h : (f.toWord op).extractLsb' 27 5 = op.bits := by
    ext i hi; simp [FormatC.toWord]; grind
  rw [opcodeOf, h, Opcode.ofBits_bits]

@[simp] theorem FormatJ.opcodeOf_toWord (op : Opcode) (f : FormatJ) : opcodeOf (f.toWord op) = op := by
  have h : (f.toWord op).extractLsb' 27 5 = op.bits := by
    ext i hi; simp [FormatJ.toWord]; grind
  rw [opcodeOf, h, Opcode.ofBits_bits]

@[simp] theorem FormatI.opcodeOf_toWord (op : Opcode) (f : FormatI) : opcodeOf (f.toWord op) = op := by
  have h : (f.toWord op).extractLsb' 27 5 = op.bits := by
    ext i hi; simp [FormatI.toWord]; grind
  rw [opcodeOf, h, Opcode.ofBits_bits]

@[simp] theorem FormatM.opcodeOf_toWord (op : Opcode) (f : FormatM) : opcodeOf (f.toWord op) = op := by
  have h : (f.toWord op).extractLsb' 27 5 = op.bits := by
    ext i hi; simp [FormatM.toWord]; grind
  rw [opcodeOf, h, Opcode.ofBits_bits]

/-! ### Each format read back from its word -/

@[simp] theorem lowBits_wordOfLow (op : Opcode) (low : BitVec 27) : lowBits (wordOfLow op low) = low := by
  ext i hi; simp [lowBits, wordOfLow]; grind

@[simp] theorem FormatR.ofWord_toWord (op : Opcode) (f : FormatR) : FormatR.ofWord (f.toWord op) = f := by
  obtain ⟨r, x, y, e, o⟩ := f
  simp only [FormatR.ofWord, FormatR.mk.injEq]
  refine ⟨?_, ?_, ?_, ?_, ?_⟩
  all_goals first
    | (ext i hi; simp [FormatR.toWord]; grind)
    | (simp [FormatR.toWord]; grind)

@[simp] theorem FormatC.ofWord_toWord (op : Opcode) (f : FormatC) : FormatC.ofWord (f.toWord op) = f := by
  obtain ⟨r, x, y, c⟩ := f
  have hc : (FormatC.toWord op ⟨r, x, y, c⟩).extractLsb' 0 4 = c.bits := by
    ext i hi; simp [FormatC.toWord]; grind
  simp only [FormatC.ofWord, FormatC.mk.injEq, hc, CmpMode.ofBits_bits, and_true]
  refine ⟨?_, ?_, ?_⟩
  all_goals (ext i hi; simp [FormatC.toWord]; grind)

/-- The reserved bits of a laid out format C word are 0 (R87). -/
@[simp] theorem FormatC.reserved_toWord (op : Opcode) (f : FormatC) : (f.toWord op).extractLsb' 4 5 = 0#5 := by
  ext i hi; simp [FormatC.toWord]; grind

@[simp] theorem FormatJ.ofWord_toWord (op : Opcode) (f : FormatJ) : FormatJ.ofWord (f.toWord op) = f := by
  obtain ⟨r, x, j, c⟩ := f
  have hc : (FormatJ.toWord op ⟨r, x, j, c⟩).extractLsb' 0 4 = c.bits := by
    ext i hi; simp [FormatJ.toWord]; grind
  simp only [FormatJ.ofWord, FormatJ.mk.injEq, hc, CmpMode.ofBits_bits, and_true]
  refine ⟨?_, ?_, ?_⟩
  all_goals (ext i hi; simp [FormatJ.toWord]; grind)

/-- The reserved bit of a laid out format J word is 0 (R87). -/
theorem FormatJ.reserved_toWord (op : Opcode) (f : FormatJ) : (f.toWord op).getLsbD 4 = false := by
  simp [FormatJ.toWord]; grind

@[simp] theorem FormatI.ofWord_toWord (op : Opcode) (f : FormatI) : FormatI.ofWord (f.toWord op) = f := by
  obtain ⟨r, i, s⟩ := f
  simp only [FormatI.ofWord, FormatI.mk.injEq]
  refine ⟨?_, ?_, ?_⟩
  all_goals (ext i hi; simp [FormatI.toWord]; grind)

@[simp] theorem FormatM.ofWord_toWord (op : Opcode) (f : FormatM) : FormatM.ofWord (f.toWord op) = f := by
  obtain ⟨r, x, y, b, m, s⟩ := f
  have hb : (FormatM.toWord op ⟨r, x, y, b, m, s⟩).extractLsb' 7 2 = b.bits := by
    ext i hi; simp [FormatM.toWord]; grind
  have hm : (FormatM.toWord op ⟨r, x, y, b, m, s⟩).extractLsb' 5 2 = m.bits := by
    ext i hi; simp [FormatM.toWord]; grind
  simp only [FormatM.ofWord, FormatM.mk.injEq, hb, hm, BlendMode.ofBits_bits, ShiftMode.ofBits_bits, true_and]
  refine ⟨?_, ?_, ?_, ?_⟩
  all_goals (ext i hi; simp [FormatM.toWord]; grind)

/-! ### Each word laid out again from its fields -/

theorem wordOfLow_lowBits (w : Word) : wordOfLow (opcodeOf w) (lowBits w) = w := by
  simp only [wordOfLow, opcodeOf, lowBits, Opcode.bits_ofBits]
  ext i hi; simp; grind

theorem FormatR.toWord_ofWord (w : Word) : (FormatR.ofWord w).toWord (opcodeOf w) = w := by
  simp only [FormatR.toWord, FormatR.ofWord, opcodeOf, Opcode.bits_ofBits]
  ext i hi; simp; grind

theorem FormatC.toWord_ofWord (w : Word) (h : w.extractLsb' 4 5 = 0#5) :
    (FormatC.ofWord w).toWord (opcodeOf w) = w := by
  have hk : ∀ k, k < 5 → w.getLsbD (4 + k) = false := fun k hk => by
    have := congrArg (fun v : BitVec 5 => v.getLsbD k) h
    simpa [hk] using this
  have h4 := hk 0; have h5 := hk 1; have h6 := hk 2; have h7 := hk 3; have h8 := hk 4
  simp only [FormatC.toWord, FormatC.ofWord, opcodeOf, Opcode.bits_ofBits, CmpMode.bits_ofBits]
  ext i hi; simp; grind

theorem FormatJ.toWord_ofWord (w : Word) (h : w.getLsbD 4 = false) :
    (FormatJ.ofWord w).toWord (opcodeOf w) = w := by
  simp only [FormatJ.toWord, FormatJ.ofWord, opcodeOf, Opcode.bits_ofBits, CmpMode.bits_ofBits]
  ext i hi; simp; grind

theorem FormatI.toWord_ofWord (w : Word) : (FormatI.ofWord w).toWord (opcodeOf w) = w := by
  simp only [FormatI.toWord, FormatI.ofWord, opcodeOf, Opcode.bits_ofBits]
  ext i hi; simp; grind

theorem FormatM.toWord_ofWord (w : Word) : (FormatM.ofWord w).toWord (opcodeOf w) = w := by
  simp only [FormatM.toWord, FormatM.ofWord, opcodeOf, Opcode.bits_ofBits, BlendMode.bits_ofBits,
    ShiftMode.bits_ofBits]
  ext i hi; simp; grind

/-! ### Decoding, function by function -/

/-- An `O` field is a number exactly when the opcode is the one of that number (R84). -/
theorem opcodeOf_eq_iff (w : Word) (b : BitVec 5) : w.extractLsb' 27 5 = b ↔ opcodeOf w = Opcode.ofBits b := by
  unfold opcodeOf
  exact ⟨fun h => by rw [h], fun h => by simpa using congrArg Opcode.bits h⟩

/-- The undefined modes are the four values of R81. -/
theorem CmpMode.defined_ofBits (b : BitVec 4) :
    (CmpMode.ofBits b).defined = true ↔ b ∉ [0x8#4, 0xB#4, 0xC#4, 0xF#4] := by revert b; decide

/-- The reserved shift mode is the value 3 (R83). -/
theorem ShiftMode.defined_ofBits (b : BitVec 2) : (ShiftMode.ofBits b).defined = true ↔ b ≠ 0b11#2 := by
  revert b; decide

/-- Everything `decodeC` can answer. -/
theorem decodeC_cases (w : Word) (mk : FormatC → Instr) :
    (w.extractLsb' 4 5 = 0#5 ∧ (FormatC.ofWord w).c.defined = true ∧ decodeC w mk = .ok (mk (FormatC.ofWord w))) ∨
    (¬(w.extractLsb' 4 5 = 0#5 ∧ (FormatC.ofWord w).c.defined = true) ∧ ∃ e, decodeC w mk = .error e) := by
  unfold decodeC
  by_cases h1 : w.extractLsb' 4 5 = 0#5 <;> by_cases h2 : (FormatC.ofWord w).c.defined = true <;> simp [h1, h2]

/-- Everything `decodeJ` can answer. -/
theorem decodeJ_cases (w : Word) (mk : FormatJ → Instr) :
    (w.getLsbD 4 = false ∧ (FormatJ.ofWord w).c.defined = true ∧ decodeJ w mk = .ok (mk (FormatJ.ofWord w))) ∨
    (¬(w.getLsbD 4 = false ∧ (FormatJ.ofWord w).c.defined = true) ∧ ∃ e, decodeJ w mk = .error e) := by
  unfold decodeJ
  cases h1 : w.getLsbD 4 <;> by_cases h2 : (FormatJ.ofWord w).c.defined = true <;> simp [h2]

/-- Everything `decodeM` can answer. -/
theorem decodeM_cases (w : Word) (mk : FormatM → Instr) :
    ((FormatM.ofWord w).shift.defined = true ∧ decodeM w mk = .ok (mk (FormatM.ofWord w))) ∨
    (¬(FormatM.ofWord w).shift.defined = true ∧ ∃ e, decodeM w mk = .error e) := by
  unfold decodeM
  by_cases h2 : (FormatM.ofWord w).shift.defined = true <;> simp [h2]

/-! ### Bytes -/

/-- The bytes of a word make the word again (R41). -/
theorem wordOfBytes_bytesOfWord (w : Word) :
    wordOfBytes (w.extractLsb' 24 8) (w.extractLsb' 16 8) (w.extractLsb' 8 8) (w.extractLsb' 0 8) = w := by
  unfold wordOfBytes
  ext i hi; simp; grind

end Sys2Proof
end

