-- ==== Sys2Proof/Laws/Memory.lean ====
section
/-! SUPPORT. The laws of memory: a read after a write, and that every memory operation keeps the canonical form. -/

namespace Sys2Proof.Machine

theorem Memory.read_erase (m : Memory) (a b : Nat) :
    (m.erase a).read b = if a = b then Memory.unlisted else m.read b := by
  induction m with
  | nil => simp [Memory.erase, Memory.read]
  | cons c m ih =>
    simp only [Memory.erase] at ih
    by_cases h : c.1 = a
    · rw [show Memory.erase (c :: m) a = m.filter (fun c => c.1 ≠ a) by simp [Memory.erase, h], ih]
      by_cases hb : a = b <;> simp [hb, Memory.read, h]
    · simp only [Memory.erase, List.filter_cons, h, ne_eq, not_false_iff, decide_true, if_true, Memory.read, ih]
      by_cases hb : c.1 = b
      · rw [if_pos hb, if_neg (by omega), if_pos hb]
      · simp [hb]

theorem Memory.read_insert (m : Memory) (a b : Nat) (v : Byte) :
    (m.insert a v).read b = if a = b then v else m.read b := by
  induction m with
  | nil => simp [Memory.insert, Memory.read]
  | cons c m ih =>
    unfold Memory.insert
    split
    · simp [Memory.read]
    · split
      · rename_i h; subst h
        simp only [Memory.read]
        by_cases hb : c.1 = b <;> simp [hb]
      · rename_i h
        simp only [Memory.read, ih]
        by_cases hb : c.1 = b
        · rw [if_pos hb, if_neg (by omega), if_pos hb]
        · simp [hb]

/-- A read after a write: the byte written at its address, the old byte everywhere else. -/
theorem Memory.read_write (m : Memory) (a b : Nat) (v : Byte) :
    (m.write a v).read b = if a = b then v else m.read b := by
  unfold Memory.write
  split
  · rename_i h; subst h; exact Memory.read_erase m a b
  · exact Memory.read_insert m a b v

/-- A read after a run of bytes was laid down. -/
theorem Memory.read_writeBytes (m : Memory) (a b : Nat) (bs : List Byte) :
    (m.writeBytes a bs).read b = if a ≤ b then (bs[b - a]?).getD (m.read b) else m.read b := by
  induction bs generalizing m a with
  | nil => simp [Memory.writeBytes]
  | cons v bs ih =>
    rw [Memory.writeBytes, ih, Memory.read_write]
    rcases Nat.lt_trichotomy a b with h | h | h
    · have h1 : b - a = (b - (a + 1)) + 1 := by omega
      rw [if_pos (show a + 1 ≤ b by omega), if_neg (show ¬a = b by omega), if_pos (show a ≤ b by omega), h1,
        List.getElem?_cons_succ]
    · subst h; simp
    · rw [if_neg (show ¬a + 1 ≤ b by omega), if_neg (show ¬a = b by omega), if_neg (show ¬a ≤ b by omega)]

/-- Outside a run of bytes, memory reads as before. -/
theorem Memory.read_writeBytes_outside (m : Memory) (a b : Nat) (bs : List Byte)
    (h : ¬(a ≤ b ∧ b < a + bs.length)) : (m.writeBytes a bs).read b = m.read b := by
  rw [Memory.read_writeBytes]
  split
  · rw [List.getElem?_eq_none (by omega)]; rfl
  · rfl

/-- Inside a run of bytes, memory reads as the run says. -/
theorem Memory.read_writeBytes_inside (m : Memory) (a k : Nat) (bs : List Byte) (h : k < bs.length) :
    (m.writeBytes a bs).read (a + k) = bs[k] := by
  rw [Memory.read_writeBytes, if_pos (by omega)]
  simp [h]

theorem Memory.mem_insert {m : Memory} {a : Nat} {v : Byte} {c : Host.Cell} (h : c ∈ m.insert a v) :
    c = (a, v) ∨ c ∈ m := by
  induction m with
  | nil => simpa [Memory.insert] using h
  | cons d m ih =>
    unfold Memory.insert at h
    split at h
    · simpa using h
    · split at h
      · rcases List.mem_cons.1 h with h | h
        · exact .inl h
        · exact .inr (List.mem_cons_of_mem _ h)
      · rcases List.mem_cons.1 h with h | h
        · subst h; exact .inr (List.mem_cons_self ..)
        · exact (ih h).imp id (List.mem_cons_of_mem _)

theorem Memory.mem_write {m : Memory} {a : Nat} {v : Byte} {c : Host.Cell} (h : c ∈ m.write a v) :
    c = (a, v) ∨ c ∈ m := by
  unfold Memory.write at h
  split at h
  · exact .inr (List.mem_filter.1 h).1
  · exact Memory.mem_insert h

/-- A write keeps the canonical form. -/
theorem Memory.wf_write {m : Memory} (h : m.wf) (a : Nat) (v : Byte) : (m.write a v).wf := by
  obtain ⟨hp, hv⟩ := h
  unfold Memory.write
  split
  · exact ⟨hp.filter _, fun c hc => hv c (List.mem_filter.1 hc).1⟩
  · rename_i hne
    refine ⟨?_, fun c hc => ?_⟩
    · clear hv
      induction m with
      | nil => simp [Memory.insert]
      | cons d m ih =>
        obtain ⟨hd, hm⟩ := List.pairwise_cons.1 hp
        unfold Memory.insert
        split
        · rename_i hlt
          refine List.pairwise_cons.2 ⟨fun c hc => ?_, hp⟩
          rcases List.mem_cons.1 hc with rfl | hc
          · exact hlt
          · exact Nat.lt_trans hlt (hd c hc)
        · split
          · rename_i heq; subst heq; exact List.pairwise_cons.2 ⟨hd, hm⟩
          · refine List.pairwise_cons.2 ⟨fun c hc => ?_, ih hm⟩
            rcases Memory.mem_insert hc with rfl | hc
            · show d.1 < a; omega
            · exact hd c hc
    · rcases Memory.mem_insert hc with rfl | hc
      · exact hne
      · exact hv c hc

/-- Laying bytes down keeps the canonical form. -/
theorem Memory.wf_writeBytes {m : Memory} (h : m.wf) (a : Nat) (bs : List Byte) : (m.writeBytes a bs).wf := by
  induction bs generalizing m a with
  | nil => exact h
  | cons v bs ih => exact ih (Memory.wf_write h a v) _

/-- Bytes laid down inside a bound leave every listed address inside it. -/
theorem Memory.writeBytes_below {m : Memory} {n : Nat} (h : ∀ c ∈ m, c.1 < n) (a : Nat) (bs : List Byte)
    (hb : a + bs.length ≤ n) : ∀ c ∈ m.writeBytes a bs, c.1 < n := by
  induction bs generalizing m a with
  | nil => exact h
  | cons v bs ih =>
    simp only [List.length_cons] at hb
    refine ih (fun c hc => ?_) _ (by omega)
    rcases Memory.mem_write hc with rfl | hc
    · show a < n; omega
    · exact h c hc

/-- Reset's memory is canonical. -/
theorem State.reset_mem_wf : State.reset.mem.wf := by decide

@[simp] theorem Memory.readBytes_length (m : Memory) (a n : Nat) : (m.readBytes a n).length = n := by
  induction n generalizing a with
  | zero => rfl
  | succ n ih => simp [Memory.readBytes, ih]

@[simp] theorem beBytes_length (v : Word) (n : Nat) : (beBytes v n).length = n := by
  induction n with
  | zero => rfl
  | succ n ih => simp [beBytes, ih]

theorem Memory.readBytes_getElem (m : Memory) (a n k : Nat) (h : k < (m.readBytes a n).length) :
    (m.readBytes a n)[k] = m.read (a + k) := by
  induction n generalizing a k with
  | zero => simp at h
  | succ n ih =>
    cases k with
    | zero => simp [Memory.readBytes]
    | succ k => simp only [Memory.readBytes, List.getElem_cons_succ]; rw [ih]; congr 1; omega

/-- Big-endian bytes of a word: byte `k` of `n` is bits `8 * (n - k) - 1` down to `8 * (n - 1 - k)` (R48). -/
theorem beBytes_getElem (v : Word) (n k : Nat) (h : k < (beBytes v n).length) :
    (beBytes v n)[k] = v.extractLsb' (8 * (n - 1 - k)) 8 := by
  induction n generalizing k with
  | zero => simp [beBytes] at h
  | succ n ih =>
    cases k with
    | zero => simp [beBytes]
    | succ k =>
      simp only [beBytes, List.getElem_cons_succ]
      rw [ih]
      simp only [beBytes_length] at h
      congr 2
      omega

end Sys2Proof.Machine
end

