-- ==== Sys2Proof/Laws/State.lean ====
section
/-! SUPPORT. What each update of the state does to each field: one lemma a field an update. -/

namespace Sys2Proof.Machine

section SetReg
variable (s : State) (k j : RegIdx) (v : Word)

@[simp] theorem State.setReg_ie : (s.setReg k v).ie = s.ie := rfl
@[simp] theorem State.setReg_s62 : (s.setReg k v).s62 = s.s62 := rfl
@[simp] theorem State.setReg_s63 : (s.setReg k v).s63 = s.s63 := rfl
@[simp] theorem State.setReg_halted : (s.setReg k v).halted = s.halted := rfl
@[simp] theorem State.setReg_mem : (s.setReg k v).mem = s.mem := rfl
@[simp] theorem State.setReg_cfg : (s.setReg k v).cfg = s.cfg := rfl
@[simp] theorem State.setReg_env : (s.setReg k v).env = s.env := rfl

@[simp] theorem State.setReg_reg_same : (s.setReg k v).reg k = v := by
  simp [State.setReg, State.reg]

theorem State.setReg_reg : (s.setReg k v).reg j = if j = k then v else s.reg j := by
  by_cases h : j = k
  · subst h; simp
  · have hn : k.toNat ≠ j.toNat := fun e => h (BitVec.eq_of_toNat_eq e.symm)
    simp [State.setReg, State.reg, h, hn]

theorem State.setReg_reg_ne (h : j ≠ k) : (s.setReg k v).reg j = s.reg j := by
  rw [State.setReg_reg, if_neg h]

/-- Writing back what a register holds changes nothing. -/
theorem State.setReg_reg_self : s.setReg k (s.reg k) = s := by
  cases s; simp [State.setReg, State.reg]

/-- Writes of two registers may be swapped. -/
theorem State.setReg_comm (w : Word) (h : j ≠ k) : (s.setReg k v).setReg j w = (s.setReg j w).setReg k v := by
  have hn : k.toNat ≠ j.toNat := fun e => h (BitVec.eq_of_toNat_eq e.symm)
  simp only [State.setReg, State.mk.injEq, and_true]
  exact Vector.set_comm _ _ hn

theorem State.setReg_setReg (w : Word) : (s.setReg k v).setReg k w = s.setReg k w := by
  simp [State.setReg]

end SetReg

section Jump
variable (s : State) (j : RegIdx) (v : Word)

@[simp] theorem State.jump_ie : (s.jump v).ie = s.ie := rfl
@[simp] theorem State.jump_s62 : (s.jump v).s62 = s.s62 := rfl
@[simp] theorem State.jump_s63 : (s.jump v).s63 = s.s63 := rfl
@[simp] theorem State.jump_halted : (s.jump v).halted = s.halted := rfl
@[simp] theorem State.jump_mem : (s.jump v).mem = s.mem := rfl
@[simp] theorem State.jump_cfg : (s.jump v).cfg = s.cfg := rfl
@[simp] theorem State.jump_env : (s.jump v).env = s.env := rfl
@[simp] theorem State.jump_ip : (s.jump v).ip = v := State.setReg_reg_same s ipIndex v

theorem State.jump_reg : (s.jump v).reg j = if j = ipIndex then v else s.reg j := State.setReg_reg s ipIndex j v

theorem State.jump_reg_ne (h : j ≠ ipIndex) : (s.jump v).reg j = s.reg j := State.setReg_reg_ne s ipIndex j v h

end Jump

section AdvanceIp
variable (s : State) (j : RegIdx)

@[simp] theorem State.advanceIp_ie : s.advanceIp.ie = s.ie := rfl
@[simp] theorem State.advanceIp_s62 : s.advanceIp.s62 = s.s62 := rfl
@[simp] theorem State.advanceIp_s63 : s.advanceIp.s63 = s.s63 := rfl
@[simp] theorem State.advanceIp_halted : s.advanceIp.halted = s.halted := rfl
@[simp] theorem State.advanceIp_mem : s.advanceIp.mem = s.mem := rfl
@[simp] theorem State.advanceIp_cfg : s.advanceIp.cfg = s.cfg := rfl
@[simp] theorem State.advanceIp_env : s.advanceIp.env = s.env := rfl
@[simp] theorem State.advanceIp_ip : s.advanceIp.ip = s.ip + 4 := State.jump_ip s _

theorem State.advanceIp_reg : s.advanceIp.reg j = if j = ipIndex then s.ip + 4 else s.reg j := State.jump_reg s j _

/-- The instruction in execution was fetched from the IP before the increment (R24, R200). -/
@[simp] theorem State.advanceIp_fetchedFrom : s.advanceIp.fetchedFrom = s.ip := by
  simp [State.fetchedFrom]

end AdvanceIp

section SetEnv
variable (s : State) (e : Env) (j : RegIdx)

@[simp] theorem State.setEnv_ie : (s.setEnv e).ie = s.ie := rfl
@[simp] theorem State.setEnv_s62 : (s.setEnv e).s62 = s.s62 := rfl
@[simp] theorem State.setEnv_s63 : (s.setEnv e).s63 = s.s63 := rfl
@[simp] theorem State.setEnv_halted : (s.setEnv e).halted = s.halted := rfl
@[simp] theorem State.setEnv_mem : (s.setEnv e).mem = s.mem := rfl
@[simp] theorem State.setEnv_cfg : (s.setEnv e).cfg = s.cfg := rfl
@[simp] theorem State.setEnv_env : (s.setEnv e).env = e := rfl
@[simp] theorem State.setEnv_reg : (s.setEnv e).reg j = s.reg j := rfl
@[simp] theorem State.setEnv_ip : (s.setEnv e).ip = s.ip := rfl

end SetEnv

section AfterIrqRead
variable (s : State) (j : RegIdx)

@[simp] theorem State.afterIrqRead_x : s.afterIrqRead.x = s.x := by unfold State.afterIrqRead; split <;> rfl
@[simp] theorem State.afterIrqRead_ie : s.afterIrqRead.ie = s.ie := by unfold State.afterIrqRead; split <;> rfl
@[simp] theorem State.afterIrqRead_s62 : s.afterIrqRead.s62 = s.s62 := by unfold State.afterIrqRead; split <;> rfl
@[simp] theorem State.afterIrqRead_s63 : s.afterIrqRead.s63 = s.s63 := by unfold State.afterIrqRead; split <;> rfl
@[simp] theorem State.afterIrqRead_halted : s.afterIrqRead.halted = s.halted := by
  unfold State.afterIrqRead; split <;> rfl
@[simp] theorem State.afterIrqRead_mem : s.afterIrqRead.mem = s.mem := by unfold State.afterIrqRead; split <;> rfl
@[simp] theorem State.afterIrqRead_cfg : s.afterIrqRead.cfg = s.cfg := by unfold State.afterIrqRead; split <;> rfl
@[simp] theorem State.afterIrqRead_reg : s.afterIrqRead.reg j = s.reg j := by unfold State.reg; simp
@[simp] theorem State.afterIrqRead_ip : s.afterIrqRead.ip = s.ip := State.afterIrqRead_reg s ipIndex

/-- Reading the line records no event. -/
@[simp] theorem State.afterIrqRead_events : s.afterIrqRead.env.events = s.env.events := by
  unfold State.afterIrqRead Env.nextIrq
  split
  · split <;> rfl
  · rfl

end AfterIrqRead

section TrapEntry
variable (s : State) (c : TrapCause) (j : RegIdx)

@[simp] theorem State.trapEntry_ie : (s.trapEntry c).ie = false := rfl
@[simp] theorem State.trapEntry_s62 : (s.trapEntry c).s62 = s.reg savedIndex := rfl
@[simp] theorem State.trapEntry_s63 : (s.trapEntry c).s63 = s.ip := rfl
@[simp] theorem State.trapEntry_halted : (s.trapEntry c).halted = s.halted := rfl
@[simp] theorem State.trapEntry_mem : (s.trapEntry c).mem = s.mem := rfl
@[simp] theorem State.trapEntry_cfg : (s.trapEntry c).cfg = s.cfg := rfl
@[simp] theorem State.trapEntry_env : (s.trapEntry c).env = s.env := rfl
@[simp] theorem State.trapEntry_ip : (s.trapEntry c).ip = s.vector c := State.jump_ip _ _

theorem State.trapEntry_reg : (s.trapEntry c).reg j = if j = ipIndex then s.vector c else s.reg j :=
  State.jump_reg _ j _

end TrapEntry

section TrapReturn
variable (s : State) (j : RegIdx)

@[simp] theorem State.trapReturn_ie : s.trapReturn.ie = true := rfl
@[simp] theorem State.trapReturn_s62 : s.trapReturn.s62 = s.s62 := rfl
@[simp] theorem State.trapReturn_s63 : s.trapReturn.s63 = s.s63 := rfl
@[simp] theorem State.trapReturn_halted : s.trapReturn.halted = s.halted := rfl
@[simp] theorem State.trapReturn_mem : s.trapReturn.mem = s.mem := rfl
@[simp] theorem State.trapReturn_cfg : s.trapReturn.cfg = s.cfg := rfl
@[simp] theorem State.trapReturn_env : s.trapReturn.env = s.env := rfl
@[simp] theorem State.trapReturn_ip : s.trapReturn.ip = s.s63 := State.jump_ip _ _

theorem State.trapReturn_reg :
    s.trapReturn.reg j = if j = ipIndex then s.s63 else if j = savedIndex then s.s62 else s.reg j := by
  show ((s.setReg savedIndex s.s62).jump s.s63).reg j = _
  rw [State.jump_reg, State.setReg_reg]

end TrapReturn

end Sys2Proof.Machine
end

