-- ==== Sys2Proof/Laws/Ops.lean ====
section
/-! SUPPORT. One lemma a shared operation: everything it can do. -/

namespace Sys2Proof.Machine

/-! ### Access checks, MemRead, MemWrite -/

theorem State.inMemory_iff (s : State) (addr : Word) (n : Nat) :
    s.inMemory addr n = true ↔ addr.toNat + n ≤ s.cfg.memSize := by simp [State.inMemory]

/-- The checks of an access, first that applies wins (R47, R48, R208). -/
theorem State.checkAccess_cases (s : State) (k : Access) (addr : Word) (n : Nat) :
    (addr.toNat % n ≠ 0 ∧ s.checkAccess k addr n = some (s.misaligned k addr)) ∨
    (addr.toNat % n = 0 ∧ ¬addr.toNat + n ≤ s.cfg.memSize ∧ s.checkAccess k addr n = some (s.outside k addr)) ∨
    (addr.toNat % n = 0 ∧ addr.toNat + n ≤ s.cfg.memSize ∧ s.checkAccess k addr n = none) := by
  unfold State.checkAccess State.inMemory
  by_cases h1 : addr.toNat % n = 0 <;> by_cases h2 : addr.toNat + n ≤ s.cfg.memSize <;> simp [h1, h2]

/-- MemRead answers the big-endian value of the bytes, or the fault of the first check that fails. -/
theorem State.memRead_cases (s : State) (k : Access) (addr : Word) (n : Nat) :
    (addr.toNat % n ≠ 0 ∧ s.memRead k addr n = .error (s.misaligned k addr)) ∨
    (addr.toNat % n = 0 ∧ ¬addr.toNat + n ≤ s.cfg.memSize ∧ s.memRead k addr n = .error (s.outside k addr)) ∨
    (addr.toNat % n = 0 ∧ addr.toNat + n ≤ s.cfg.memSize ∧
      s.memRead k addr n = .ok (BitVec.ofNat 32 (beValue (s.mem.readBytes addr.toNat n)))) := by
  unfold State.memRead
  rcases s.checkAccess_cases k addr n with ⟨h, e⟩ | ⟨h, h', e⟩ | ⟨h, h', e⟩ <;> simp [*]

theorem State.memRead_ok (s : State) (k : Access) (addr : Word) (n : Nat) (h : addr.toNat % n = 0)
    (hb : addr.toNat + n ≤ s.cfg.memSize) :
    s.memRead k addr n = .ok (BitVec.ofNat 32 (beValue (s.mem.readBytes addr.toNat n))) := by
  rcases s.memRead_cases k addr n with ⟨h', _⟩ | ⟨_, h', _⟩ | ⟨_, _, e⟩
  · exact absurd h h'
  · exact absurd hb h'
  · exact e

/-- MemWrite lays the low bytes of the value down, or answers the fault of the first check that fails. -/
theorem State.memWrite_cases (s : State) (addr : Word) (n : Nat) (v : Word) :
    (addr.toNat % n ≠ 0 ∧ s.memWrite addr n v = .error (s.misaligned .store addr)) ∨
    (addr.toNat % n = 0 ∧ ¬addr.toNat + n ≤ s.cfg.memSize ∧ s.memWrite addr n v = .error (s.outside .store addr)) ∨
    (addr.toNat % n = 0 ∧ addr.toNat + n ≤ s.cfg.memSize ∧
      s.memWrite addr n v = .ok { s with mem := s.mem.writeBytes addr.toNat (beBytes v n) }) := by
  unfold State.memWrite
  rcases s.checkAccess_cases .store addr n with ⟨h, e⟩ | ⟨h, h', e⟩ | ⟨h, h', e⟩ <;> simp [*]

theorem State.memWrite_ok (s : State) (addr : Word) (n : Nat) (v : Word) (h : addr.toNat % n = 0)
    (hb : addr.toNat + n ≤ s.cfg.memSize) :
    s.memWrite addr n v = .ok { s with mem := s.mem.writeBytes addr.toNat (beBytes v n) } := by
  rcases s.memWrite_cases addr n v with ⟨h', _⟩ | ⟨_, h', _⟩ | ⟨_, _, e⟩
  · exact absurd h h'
  · exact absurd hb h'
  · exact e

/-! ### Bytes and numbers -/

theorem beValue_lt (bs : List Byte) : beValue bs < 2 ^ (8 * bs.length) := by
  induction bs with
  | nil => simp [beValue]
  | cons b bs ih =>
    have hb : b.toNat + 1 ≤ 2 ^ 8 := b.isLt
    have h : (b.toNat + 1) * 2 ^ (8 * bs.length) ≤ 2 ^ 8 * 2 ^ (8 * bs.length) := Nat.mul_le_mul_right _ hb
    have e : 2 ^ (8 * (b :: bs).length) = 2 ^ 8 * 2 ^ (8 * bs.length) := by
      rw [← Nat.pow_add, List.length_cons]; congr 1; omega
    rw [beValue, e]
    rw [Nat.add_mul, Nat.one_mul] at h
    omega

/-- The bytes of a word read as a number: its low bits (R42, R48). -/
theorem beValue_beBytes (v : Word) (n : Nat) : beValue (beBytes v n) = v.toNat % 2 ^ (8 * n) := by
  induction n with
  | zero => simp [beBytes, beValue, Nat.mod_one]
  | succ n ih =>
    rw [beBytes, beValue, ih, beBytes_length, BitVec.extractLsb'_toNat, Nat.shiftRight_eq_div_pow,
      show 8 * (n + 1) = 8 * n + 8 by omega, Nat.pow_add, Nat.mod_mul, Nat.mul_comm, Nat.add_comm]

/-- Reading a run of bytes back after it was laid down. -/
theorem Memory.readBytes_writeBytes (m : Memory) (a : Nat) (bs : List Byte) :
    (m.writeBytes a bs).readBytes a bs.length = bs := by
  apply List.ext_getElem (by simp)
  intro k h1 h2
  rw [Memory.readBytes_getElem, Memory.read_writeBytes_inside _ _ _ _ h2]

/-- Two memories that read alike on a run give the same bytes of it. -/
theorem Memory.readBytes_congr {m m' : Memory} {a n : Nat} (h : ∀ b, a ≤ b → b < a + n → m.read b = m'.read b) :
    m.readBytes a n = m'.readBytes a n := by
  apply List.ext_getElem (by simp)
  intro k h1 h2
  simp only [Memory.readBytes_length] at h1
  rw [Memory.readBytes_getElem, Memory.readBytes_getElem]
  exact h _ (by omega) (by omega)

/-! ### The environment -/

@[simp] theorem Env.nextIrq_events (e : Env) : e.nextIrq.2.events = e.events := by
  unfold Env.nextIrq; split <;> rfl

@[simp] theorem Env.nextIn_events (e : Env) : e.nextIn.2.events = e.events := by
  unfold Env.nextIn; split <;> rfl

@[simp] theorem Env.nextDiskByte_events (e : Env) : e.nextDiskByte.2.events = e.events := by
  unfold Env.nextDiskByte; split <;> rfl

@[simp] theorem Env.nextDisk_events (e : Env) (n : Nat) : (e.nextDisk n).2.events = e.events := by
  induction n generalizing e with
  | zero => rfl
  | succ n ih => simp [Env.nextDisk, ih]

/-- A disk answer is as long as was asked for (R170). -/
@[simp] theorem Env.nextDisk_length (e : Env) (n : Nat) : (e.nextDisk n).1.length = n := by
  induction n generalizing e with
  | zero => rfl
  | succ n ih => simp [Env.nextDisk, ih]

@[simp] theorem Env.record_events (e : Env) (ev : Event) : (e.record ev).events = e.events ++ [ev] := rfl

/-! ### Outcomes -/

theorem State.finishLoad_next {s t : State} {r : RegIdx} {v : Except Fault Word} (h : s.finishLoad r v = .next t) :
    ∃ w, v = .ok w ∧ t = s.setReg r w := by
  cases v with
  | ok w => exact ⟨w, rfl, by simpa [State.finishLoad] using h.symm⟩
  | error => cases h

theorem finishStore_next {t : State} {v : Except Fault State} (h : finishStore v = .next t) : v = .ok t := by
  cases v with
  | ok w => simpa [finishStore] using h
  | error => cases h

end Sys2Proof.Machine
end

