-- ==== Sys2Proof/Laws/Operands.lean ====
section
/-! SUPPORT. The operand forms as numbers, and when a shift or a condition has a value. -/

namespace Sys2Proof.Machine

/-- A sign-extended field as a number modulo 2^32 (R78). -/
theorem signExtend_toNat {k : Nat} (v : BitVec k) : ((v.signExtend 32).toNat : Int) = v.toInt % 2 ^ 32 := by
  rw [BitVec.signExtend, BitVec.toNat_ofInt]
  exact Int.toNat_of_nonneg (Int.emod_nonneg _ (by norm_num))

/-- The second operand is the number R134 gives. -/
theorem offsetSum_toNat (f : FormatR) (s : State) : ((offsetSum f s).toNat : Int) = operandB f s := by
  have h := signExtend_toNat f.o
  rw [offsetSum, offset, BitVec.toNat_add, operandB]
  omega

/-- The immediate is the number R78 gives. -/
theorem immediate_toNat (f : FormatI) : (immediate f).toNat = immediateValue f := by
  have h := f.i.isLt
  simp only [immediate, immediateValue, BitVec.toNat_ushiftRight, BitVec.toNat_setWidth, Nat.shiftRight_eq_div_pow]
  rw [Nat.mod_eq_of_lt (by omega)]

/-- A shift mode that is not reserved has a result (R141). -/
theorem shift_defined {m : ShiftMode} (h : m.defined = true) (v : Word) (n : Nat) : ∃ w, shift m v n = some w := by
  cases m with
  | shl | shr | sar => exact ⟨_, rfl⟩
  | x1 => cases h

/-- A compare mode that is not undefined has a truth value (R80). -/
theorem condition_defined {c : CmpMode} (h : c.defined = true) (a b : Word) : ∃ v, condition c a b = some v := by
  cases c with
  | x3 | x4 | x5 | x6 => cases h
  | nz | le | lt | eq | az | gt | ge | ne | sle | slt | sgt | sge => exact ⟨_, rfl⟩

/-- Four big-endian bytes as one number. -/
theorem Memory.readBytes_four (m : Memory) (a : Nat) :
    beValue (m.readBytes a 4) =
      (m.read a).toNat * 2 ^ 24 + (m.read (a + 1)).toNat * 2 ^ 16 + (m.read (a + 2)).toNat * 2 ^ 8 +
        (m.read (a + 3)).toNat := by
  simp [Memory.readBytes, beValue, Nat.add_assoc]

/-! ### A disk answer -/

/-- A disk answer leaves the line and the coming port answers alone. -/
theorem Env.nextDisk_frame (e : Env) (n : Nat) :
    (e.nextDisk n).2.irqLevels = e.irqLevels ∧ (e.nextDisk n).2.inAnswers = e.inAnswers := by
  induction n generalizing e with
  | zero => exact ⟨rfl, rfl⟩
  | succ n ih =>
    simp only [Env.nextDisk]
    rw [(ih _).1, (ih _).2]
    unfold Env.nextDiskByte
    split <;> exact ⟨rfl, rfl⟩

/-- The bytes laid down are the first bytes of a disk answer. -/
theorem Env.nextDisk_getElem (e : Env) (n k : Nat) (hk : k < n) (hl : k < e.diskBytes.length) :
    (e.nextDisk n).1[k]? = e.diskBytes[k]? := by
  induction n generalizing e k with
  | zero => omega
  | succ n ih =>
    simp only [Env.nextDisk]
    match h : e.diskBytes with
    | [] => rw [h] at hl; simp at hl
    | b :: rest =>
      cases k with
      | zero => simp [Env.nextDiskByte, h]
      | succ k =>
        rw [h] at hl
        have := ih e.nextDiskByte.2 k (by omega) (by simpa [Env.nextDiskByte, h] using hl)
        simp only [List.getElem?_cons_succ, this]
        simp [Env.nextDiskByte, h]

/-- What a disk answer leaves of the bytes laid down. -/
theorem Env.nextDisk_rest (e : Env) (n : Nat) (h : n ≤ e.diskBytes.length) :
    (e.nextDisk n).2.diskBytes = e.diskBytes.drop n := by
  induction n generalizing e with
  | zero => rfl
  | succ n ih =>
    simp only [Env.nextDisk]
    match h' : e.diskBytes with
    | [] => rw [h'] at h; simp at h
    | b :: rest =>
      have hh : e.nextDiskByte.2.diskBytes = rest := by simp [Env.nextDiskByte, h']
      rw [ih _ (by rw [hh]; rw [h'] at h; simpa using h), hh]
      simp

end Sys2Proof.Machine
end

