-- ==== Sys2Proof/Laws/PerInstr.lean ====
section
/-! SUPPORT. Per instruction: the `O` field of its word is its row of the opcode table (30_encoding.md R84). -/

namespace Sys2Proof.Laws.EncodedOpcode

/-- The word of `i` carries the opcode of `i` in bits 31-27 (R72, R84). -/
def Statement (i : Instr) : Prop := opcodeOf (encode i) = i.opcode

theorem ldb (f : FormatR) : Statement (.ldb f) := FormatR.opcodeOf_toWord _ _
theorem ldh (f : FormatR) : Statement (.ldh f) := FormatR.opcodeOf_toWord _ _
theorem ldw (f : FormatR) : Statement (.ldw f) := FormatR.opcodeOf_toWord _ _
theorem lde (low : BitVec 27) : Statement (.lde low) := opcodeOf_wordOfLow _ _
theorem stb (f : FormatR) : Statement (.stb f) := FormatR.opcodeOf_toWord _ _
theorem sth (f : FormatR) : Statement (.sth f) := FormatR.opcodeOf_toWord _ _
theorem stw (f : FormatR) : Statement (.stw f) := FormatR.opcodeOf_toWord _ _
theorem ste (low : BitVec 27) : Statement (.ste low) := opcodeOf_wordOfLow _ _
theorem add (f : FormatR) : Statement (.add f) := FormatR.opcodeOf_toWord _ _
theorem mul (f : FormatR) : Statement (.mul f) := FormatR.opcodeOf_toWord _ _
theorem div (f : FormatR) : Statement (.div f) := FormatR.opcodeOf_toWord _ _
theorem nor (f : FormatR) : Statement (.nor f) := FormatR.opcodeOf_toWord _ _
theorem mask (f : FormatM) : Statement (.mask f) := FormatM.opcodeOf_toWord _ _
theorem alu5 (low : BitVec 27) : Statement (.alu5 low) := opcodeOf_wordOfLow _ _
theorem alu6 (low : BitVec 27) : Statement (.alu6 low) := opcodeOf_wordOfLow _ _
theorem alu7 (low : BitVec 27) : Statement (.alu7 low) := opcodeOf_wordOfLow _ _
theorem movi (f : FormatI) : Statement (.movi f) := FormatI.opcodeOf_toWord _ _
theorem addi (f : FormatI) : Statement (.addi f) := FormatI.opcodeOf_toWord _ _
theorem cmov (f : FormatC) : Statement (.cmov f) := FormatC.opcodeOf_toWord _ _
theorem cmp (f : FormatC) : Statement (.cmp f) := FormatC.opcodeOf_toWord _ _
theorem mov4 (low : BitVec 27) : Statement (.mov4 low) := opcodeOf_wordOfLow _ _
theorem mov5 (low : BitVec 27) : Statement (.mov5 low) := opcodeOf_wordOfLow _ _
theorem mov6 (low : BitVec 27) : Statement (.mov6 low) := opcodeOf_wordOfLow _ _
theorem cjmp (f : FormatJ) : Statement (.cjmp f) := FormatJ.opcodeOf_toWord _ _
theorem inPort (f : FormatR) : Statement (.inPort f) := FormatR.opcodeOf_toWord _ _
theorem outPort (f : FormatR) : Statement (.outPort f) := FormatR.opcodeOf_toWord _ _
theorem dskr (f : FormatR) : Statement (.dskr f) := FormatR.opcodeOf_toWord _ _
theorem dskw (f : FormatR) : Statement (.dskw f) := FormatR.opcodeOf_toWord _ _
theorem sys0 (low : BitVec 27) : Statement (.sys0 low) := opcodeOf_wordOfLow _ _
theorem sys (low : BitVec 27) : Statement (.sys low) := opcodeOf_wordOfLow _ _
theorem iret (low : BitVec 27) : Statement (.iret low) := opcodeOf_wordOfLow _ _
theorem halt (low : BitVec 27) : Statement (.halt low) := opcodeOf_wordOfLow _ _

end Sys2Proof.Laws.EncodedOpcode
end

