-- ==== Sys2Proof/Laws/Step.lean ====
section
/-! SUPPORT. What `exec` and `step` can do, said once. -/

namespace Sys2Proof.Machine

/-- Everything an instruction that completes can do to the state. -/
theorem exec_next_cases {i : Instr} {s t : State} (h : exec i s = .next t) :
    (∃ r v, r ∈ writes i ∧ t = s.setReg r v) ∨
    (t = s ∧ ((∃ f, i = .cmov f) ∨ ∃ f, i = .cjmp f)) ∨
    (∃ a bs, storesToMemory i = true ∧ a + bs.length ≤ s.cfg.memSize ∧
      t = { s with mem := s.mem.writeBytes a bs }) ∨
    (∃ f, i = .inPort f ∧ s.devicePresent (s.reg f.x) = true ∧
      t = (s.setReg f.r s.env.nextIn.1).setEnv
        (s.env.nextIn.2.record (.portIn (s.reg f.x) (offsetSum f s) s.env.nextIn.1))) ∨
    (∃ f, i = .outPort f ∧ s.devicePresent (s.reg f.x) = true ∧
      t = s.setEnv (s.env.record (.portOut (s.reg f.x) (offsetSum f s) (s.reg f.r)))) ∨
    (∃ f, i = .dskr f ∧ s.devicePresent (s.reg f.y) = true ∧
      (s.reg f.r).toNat + s.cfg.diskBlockSize ≤ s.cfg.memSize ∧
      t = { s with mem := s.mem.writeBytes (s.reg f.r).toNat (s.env.nextDisk s.cfg.diskBlockSize).1 }.setEnv
        ((s.env.nextDisk s.cfg.diskBlockSize).2.record
          (.diskRead (s.reg f.y) (s.reg f.x) (s.env.nextDisk s.cfg.diskBlockSize).1))) ∨
    (∃ f, i = .dskw f ∧ s.devicePresent (s.reg f.y) = true ∧
      (s.reg f.r).toNat + s.cfg.diskBlockSize ≤ s.cfg.memSize ∧
      t = s.setEnv (s.env.record (.diskWrite (s.reg f.y) (s.reg f.x)
        (s.mem.readBytes (s.reg f.r).toNat s.cfg.diskBlockSize)))) ∨
    (∃ low, i = .sys low ∧ t = s.trapEntry .sys) ∨
    (∃ low, i = .iret low ∧ t = s.trapReturn) ∨
    (∃ low, i = .halt low ∧ t = { s with halted := true }) := by
  have store : ∀ (addr : Word) (n : Nat) (v : Word), storesToMemory i = true →
      finishStore (s.memWrite addr n v) = .next t →
      ∃ a bs, storesToMemory i = true ∧ a + bs.length ≤ s.cfg.memSize ∧
        t = { s with mem := s.mem.writeBytes a bs } := by
    intro addr n v hi ht
    rcases s.memWrite_cases addr n v with ⟨_, e⟩ | ⟨_, _, e⟩ | ⟨_, hb, e⟩
    · rw [e] at ht; cases ht
    · rw [e] at ht; cases ht
    · rw [e] at ht
      exact ⟨addr.toNat, beBytes v n, hi, by simpa using hb, by simpa [finishStore] using ht.symm⟩
  cases i with
  | lde | ste | alu5 | alu6 | alu7 | mov4 | mov5 | mov6 | sys0 => cases h
  | ldb f | ldh f | ldw f =>
    obtain ⟨w, _, e⟩ := State.finishLoad_next h
    exact .inl ⟨f.r, w, by simp [writes], e⟩
  | stb f | sth f | stw f => exact .inr (.inr (.inl (store _ _ _ rfl h)))
  | add f | mul f | nor f | movi f | addi f =>
    cases h; exact .inl ⟨f.r, _, by simp [writes], rfl⟩
  | div f =>
    simp only [exec, execDiv] at h
    split at h
    · cases h
    · cases h; exact .inl ⟨f.r, _, by simp [writes], rfl⟩
  | mask f =>
    simp only [exec, execMask] at h
    split at h
    · cases h; exact .inl ⟨f.r, _, by simp [writes], rfl⟩
    · cases h
  | cmov f =>
    simp only [exec, execCmov] at h
    split at h
    · cases h; exact .inl ⟨f.r, _, by simp [writes], rfl⟩
    · cases h; exact .inr (.inl ⟨rfl, .inl ⟨f, rfl⟩⟩)
    · cases h
  | cmp f =>
    simp only [exec, execCmp] at h
    split at h
    · cases h; exact .inl ⟨f.r, _, by simp [writes], rfl⟩
    · cases h
  | cjmp f =>
    simp only [exec, execCjmp] at h
    split at h
    · cases h; exact .inl ⟨ipIndex, _, by simp [writes, ipIndex], rfl⟩
    · cases h; exact .inr (.inl ⟨rfl, .inr ⟨f, rfl⟩⟩)
    · cases h
  | inPort f =>
    simp only [exec, execInPort] at h
    split at h
    · rename_i hd; cases h
      exact .inr (.inr (.inr (.inl ⟨f, rfl, hd, rfl⟩)))
    · cases h
  | outPort f =>
    simp only [exec, execOutPort] at h
    split at h
    · rename_i hd; cases h
      exact .inr (.inr (.inr (.inr (.inl ⟨f, rfl, hd, rfl⟩))))
    · cases h
  | dskr f =>
    simp only [exec, execDskr] at h
    split at h
    · rename_i hd
      split at h
      · rename_i hm; cases h
        exact .inr (.inr (.inr (.inr (.inr (.inl ⟨f, rfl, hd, (State.inMemory_iff ..).1 hm, rfl⟩)))))
      · cases h
    · cases h
  | dskw f =>
    simp only [exec, execDskw] at h
    split at h
    · rename_i hd
      split at h
      · rename_i hm; cases h
        exact .inr (.inr (.inr (.inr (.inr (.inr (.inl ⟨f, rfl, hd, (State.inMemory_iff ..).1 hm, rfl⟩))))))
      · cases h
    · cases h
  | sys low => cases h; exact .inr (.inr (.inr (.inr (.inr (.inr (.inr (.inl ⟨low, rfl, rfl⟩)))))))
  | iret low => cases h; exact .inr (.inr (.inr (.inr (.inr (.inr (.inr (.inr (.inl ⟨low, rfl, rfl⟩))))))))
  | halt low => cases h; exact .inr (.inr (.inr (.inr (.inr (.inr (.inr (.inr (.inr ⟨low, rfl, rfl⟩))))))))

/-- Everything a step that answers a state can be (R208): the halted machine, an interrupt entry, an instruction. -/
theorem step_next_cases {s t : State} (h : step s = .next t) :
    (s.halted = true ∧ t = s) ∨
    (s.Interrupts ∧ t = s.afterIrqRead.trapEntry .irq) ∨
    (∃ w i, s.Fetches w ∧ decodeWord w = .ok i ∧ exec i s.afterIrqRead.advanceIp = .next t) := by
  unfold step at h
  split at h
  · rename_i hh; cases h; exact .inl ⟨hh, rfl⟩
  · rename_i hh
    split at h
    · rename_i hi; cases h; exact .inr (.inl ⟨⟨by simpa using hh, hi⟩, rfl⟩)
    · rename_i hi
      split at h
      · cases h
      · rename_i w hw
        split at h
        · cases h
        · rename_i i hd
          exact .inr (.inr ⟨w, i, ⟨by simpa using hh, by simpa using hi, hw⟩, hd, h⟩)

/-- What a step does with the word it fetches (R244). -/
theorem step_of_fetches {s : State} {w : Word} (h : s.Fetches w) :
    step s =
      match decodeWord w with
      | .error _ => .fault (.illegalInstruction s.ip w)
      | .ok i => exec i s.afterIrqRead.advanceIp := by
  obtain ⟨h1, h2, h3⟩ := h
  unfold step
  rw [h1, h2, h3]
  rfl

/-- Everything a fetch that answers a word says. -/
theorem State.fetch_ok {s : State} {w : Word} (h : s.fetch = .ok w) :
    s.ip.toNat % 4 = 0 ∧ s.ip.toNat + 4 ≤ s.cfg.memSize ∧
      w = BitVec.ofNat 32 (beValue (s.mem.readBytes s.ip.toNat 4)) := by
  unfold State.fetch at h
  rcases s.memRead_cases .fetch s.ip 4 with ⟨_, e⟩ | ⟨_, _, e⟩ | ⟨h1, h2, e⟩ <;> rw [e] at h <;> cases h
  exact ⟨h1, h2, rfl⟩

/-- A register write changes nothing else. -/
theorem OnlyReg.setReg (s : State) (r : RegIdx) (v : Word) : OnlyReg s (s.setReg r v) r :=
  ⟨fun _ h => State.setReg_reg_ne _ _ _ _ h, fun _ => rfl, ⟨rfl, rfl, rfl, rfl, rfl⟩, rfl⟩

/-- A run of bytes laid down changes nothing else. -/
theorem OnlyBytes.writeBytes (s : State) (a : Nat) (bs : List Byte) :
    OnlyBytes s { s with mem := s.mem.writeBytes a bs } a bs.length :=
  ⟨fun _ => rfl, fun _ hb => Memory.read_writeBytes_outside _ _ _ _ hb, ⟨rfl, rfl, rfl, rfl, rfl⟩, rfl⟩

end Sys2Proof.Machine
end

