-- ==== Sys2Proof/Tests/Slice0.lean ====
section
/-! SUPPORT. Tests. Every expected value is a line of 95_test_vectors.md, by its conventions (a0 = 0x100, MEM_SIZE = 0x1000,
SYS_VECTOR = 0x40, IRQ_VECTOR = 0x80, DISK_BLOCK_SIZE = 16, IE = 0), the example of an
instruction's own rule (the words 0x08A30FFE of R111, 0x60830BDF of R140, 0xB840BFEA of R163, 0xBFFF8007 of R98), or worked out
from the rule of the instruction it is about. -/

open Sys2Proof Sys2Proof.Machine

namespace Sys2Proof.Tests

/-- The platform of 95_test_vectors.md; devices 5 and 9 are absent. -/
def platform : Config where
  memSize := 0x1000
  resetVector := 0
  resetIE := false
  sysVector := 0x40
  irqVector := 0x80
  hasIrq := true
  diskBlockSize := 16
  devices := .allBut [5, 9]
  div32 := .unsignedTruncating

/-- A state about to fetch from `a0`, with the registers and the memory given and an environment that has laid down the
answers of the IO vectors. -/
def start (a0 : Word) (regs : List (RegIdx × Word)) (mem : Memory) : State :=
  regs.foldl (fun s p => s.setReg p.1 p.2)
    { x := (Vector.replicate 64 0).set 63 a0
      ie := false
      s62 := 5
      s63 := 0x14
      halted := false
      mem := mem
      cfg := platform
      env := {
        irqLevels := [false, true]
        inAnswers := [0xAB]
        diskBytes := [0xA0, 0xA1, 0xA2, 0xA3, 0xA4, 0xA5, 0xA6, 0xA7, 0xA8, 0xA9, 0xAA, 0xAB, 0xAC, 0xAD, 0xAE, 0xAF]
        freeDrawn := 0
        events := [] } }

/-- The state of a vector: the word `w` at 0x100, about to be fetched. -/
def vector (w : Nat) (regs : List (RegIdx × Word)) (mem : Memory) : State :=
  (start 0x100 regs mem).withFetchWord 32 w

/-- One step of a vector. -/
def run (w : Nat) (regs : List (RegIdx × Word)) (mem : Memory) : Host.Outcome State Fault Refusal :=
  step (vector w regs mem)

/-- A register after a step that answers a state. -/
def reg (o : Host.Outcome State Fault Refusal) (k : RegIdx) : Option Word :=
  match o with
  | .next t => some (t.reg k)
  | _ => none

/-- Bytes of memory after a step that answers a state. -/
def bytes (o : Host.Outcome State Fault Refusal) (a n : Nat) : Option (List Byte) :=
  match o with
  | .next t => some (t.mem.readBytes a n)
  | _ => none

/-- The history after a step that answers a state. -/
def history (o : Host.Outcome State Fault Refusal) : Option (List Event) :=
  match o with
  | .next t => some t.env.events
  | _ => none

/-- The system state after a step that answers a state: `IE`, `S62`, `S63`, `halted`. -/
def system (o : Host.Outcome State Fault Refusal) : Option (Bool × Word × Word × Bool) :=
  match o with
  | .next t => some (t.ie, t.s62, t.s63, t.halted)
  | _ => none

/-- The fault of a step that faults. -/
def fault (o : Host.Outcome State Fault Refusal) : Option Fault :=
  match o with
  | .fault r => some r
  | _ => none

/-- The launch memory of the load vectors. -/
def loads : Memory := [(0x200, 0x80), (0x201, 0x01), (0x202, 0xFF), (0x203, 0x7F), (0x204, 0x12), (0x205, 0x34),
  (0x206, 0x56), (0x207, 0x78)]

/-! ### WellFormed: what each check refuses -/

theorem test_wf_refuses_reserved_shift : (Instr.mask ⟨1, 2, 3, .xor, .x1, 31⟩).wf = false := by decide
theorem test_wf_refuses_cmov_undefined_mode : (Instr.cmov ⟨1, 2, 3, .x3⟩).wf = false := by decide
theorem test_wf_refuses_cmp_undefined_mode : (Instr.cmp ⟨1, 2, 3, .x4⟩).wf = false := by decide
theorem test_wf_refuses_cjmp_undefined_mode : (Instr.cjmp ⟨1, 1, 1, .x5⟩).wf = false := by decide
theorem test_wf_refuses_last_undefined_mode : (Instr.cmp ⟨1, 2, 3, .x6⟩).wf = false := by decide
theorem test_wf_accepts_unused_fields :
    (Instr.ldw ⟨1, 2, 3, true, 0xFF⟩).wf = true ∧ (Instr.halt 0x7FFFFFF).wf = true := by decide

/-! ### Decoding: a word of each row with its fields as the spec writes them -/

theorem test_decode_ldb :
    decodeWord 0x00210704 = .ok (.ldb ⟨1, 2, 3, true, 4⟩) ∧ encode (.ldb ⟨1, 2, 3, true, 4⟩) = 0x00210704 := by decide
theorem test_decode_ldh :
    decodeWord 0x08A30FFE = .ok (.ldh ⟨5, 6, 7, true, 0xFE⟩) ∧ encode (.ldh ⟨5, 6, 7, true, 0xFE⟩) = 0x08A30FFE := by decide
theorem test_decode_ldw :
    decodeWord 0x103F8600 = .ok (.ldw ⟨1, 63, 3, false, 0⟩) ∧ encode (.ldw ⟨1, 63, 3, false, 0⟩) = 0x103F8600 := by decide
theorem test_decode_lde : decodeWord 0x1FFFFFFF = .ok (.lde 0x7FFFFFF) ∧ encode (.lde 0x7FFFFFF) = 0x1FFFFFFF := by decide
theorem test_decode_stb :
    decodeWord 0x20210601 = .ok (.stb ⟨1, 2, 3, false, 1⟩) ∧ encode (.stb ⟨1, 2, 3, false, 1⟩) = 0x20210601 := by decide
theorem test_decode_sth :
    decodeWord 0x28210602 = .ok (.sth ⟨1, 2, 3, false, 2⟩) ∧ encode (.sth ⟨1, 2, 3, false, 2⟩) = 0x28210602 := by decide
theorem test_decode_stw :
    decodeWord 0x302106FC = .ok (.stw ⟨1, 2, 3, false, 0xFC⟩) ∧ encode (.stw ⟨1, 2, 3, false, 0xFC⟩) = 0x302106FC := by decide
theorem test_decode_ste : decodeWord 0x38000000 = .ok (.ste 0) ∧ encode (.ste 0) = 0x38000000 := by decide
theorem test_decode_add :
    decodeWord 0x402106FF = .ok (.add ⟨1, 2, 3, false, 0xFF⟩) ∧ encode (.add ⟨1, 2, 3, false, 0xFF⟩) = 0x402106FF := by decide
theorem test_decode_mul :
    decodeWord 0x48210601 = .ok (.mul ⟨1, 2, 3, false, 1⟩) ∧ encode (.mul ⟨1, 2, 3, false, 1⟩) = 0x48210601 := by decide
theorem test_decode_div :
    decodeWord 0x50210600 = .ok (.div ⟨1, 2, 3, false, 0⟩) ∧ encode (.div ⟨1, 2, 3, false, 0⟩) = 0x50210600 := by decide
theorem test_decode_nor :
    decodeWord 0x5821040F = .ok (.nor ⟨1, 2, 2, false, 0x0F⟩) ∧ encode (.nor ⟨1, 2, 2, false, 0x0F⟩) = 0x5821040F := by decide
theorem test_decode_mask :
    decodeWord 0x60830BDF = .ok (.mask ⟨4, 6, 5, .xor, .sar, 31⟩) ∧ encode (.mask ⟨4, 6, 5, .xor, .sar, 31⟩) = 0x60830BDF := by decide
theorem test_decode_alu5 : decodeWord 0x68000000 = .ok (.alu5 0) ∧ encode (.alu5 0) = 0x68000000 := by decide
theorem test_decode_alu6 : decodeWord 0x70000000 = .ok (.alu6 0) ∧ encode (.alu6 0) = 0x70000000 := by decide
theorem test_decode_alu7 : decodeWord 0x78000000 = .ok (.alu7 0) ∧ encode (.alu7 0) = 0x78000000 := by decide
theorem test_decode_movi :
    decodeWord 0x80224684 = .ok (.movi ⟨1, 0x1234, 4⟩) ∧ encode (.movi ⟨1, 0x1234, 4⟩) = 0x80224684 := by decide
theorem test_decode_addi :
    decodeWord 0x882ACF00 = .ok (.addi ⟨1, 0x5678, 0⟩) ∧ encode (.addi ⟨1, 0x5678, 0⟩) = 0x882ACF00 := by decide
theorem test_decode_cmov :
    decodeWord 0x9021060A = .ok (.cmov ⟨1, 2, 3, .slt⟩) ∧ encode (.cmov ⟨1, 2, 3, .slt⟩) = 0x9021060A := by decide
theorem test_decode_cmp :
    decodeWord 0x98210602 = .ok (.cmp ⟨1, 2, 3, .lt⟩) ∧ encode (.cmp ⟨1, 2, 3, .lt⟩) = 0x98210602 := by decide
theorem test_decode_mov4 : decodeWord 0xA0000000 = .ok (.mov4 0) ∧ encode (.mov4 0) = 0xA0000000 := by decide
theorem test_decode_mov5 : decodeWord 0xA8000000 = .ok (.mov5 0) ∧ encode (.mov5 0) = 0xA8000000 := by decide
theorem test_decode_mov6 : decodeWord 0xB0000000 = .ok (.mov6 0) ∧ encode (.mov6 0) = 0xB0000000 := by decide
theorem test_decode_cjmp :
    decodeWord 0xB840BFEA = .ok (.cjmp ⟨2, 1, 0x1FF, .slt⟩) ∧ encode (.cjmp ⟨2, 1, 0x1FF, .slt⟩) = 0xB840BFEA := by decide
theorem test_decode_in :
    decodeWord 0xC0210601 = .ok (.inPort ⟨1, 2, 3, false, 1⟩) ∧ encode (.inPort ⟨1, 2, 3, false, 1⟩) = 0xC0210601 := by decide
theorem test_decode_out :
    decodeWord 0xC8210600 = .ok (.outPort ⟨1, 2, 3, false, 0⟩) ∧ encode (.outPort ⟨1, 2, 3, false, 0⟩) = 0xC8210600 := by decide
theorem test_decode_dskr :
    decodeWord 0xD02107FF = .ok (.dskr ⟨1, 2, 3, true, 0xFF⟩) ∧ encode (.dskr ⟨1, 2, 3, true, 0xFF⟩) = 0xD02107FF := by decide
theorem test_decode_dskw :
    decodeWord 0xD8210600 = .ok (.dskw ⟨1, 2, 3, false, 0⟩) ∧ encode (.dskw ⟨1, 2, 3, false, 0⟩) = 0xD8210600 := by decide
theorem test_decode_sys0 :
    decodeWord 0xE7FFFFFF = .ok (.sys0 0x7FFFFFF) ∧ encode (.sys0 0x7FFFFFF) = 0xE7FFFFFF := by decide
theorem test_decode_sys : decodeWord 0xE8000000 = .ok (.sys 0) ∧ encode (.sys 0) = 0xE8000000 := by decide
theorem test_decode_iret :
    decodeWord 0xF7FFFFFF = .ok (.iret 0x7FFFFFF) ∧ encode (.iret 0x7FFFFFF) = 0xF7FFFFFF := by decide
theorem test_decode_halt : decodeWord 0xF8123456 = .ok (.halt 0x123456) ∧ encode (.halt 0x123456) = 0xF8123456 := by decide
theorem test_decode_rejects_by_name :
    decodeWord 0x90210612 = .error .reservedBits ∧ decodeWord 0xB820FFB0 = .error .reservedBits ∧
      decodeWord 0x98210608 = .error .undefinedCompareMode ∧ decodeWord 0x60000060 = .error .reservedShiftMode := by decide
theorem test_decode_bytes : decode [0xBF, 0xFF, 0x80, 0x43, 0x00] = .ok (.cjmp ⟨63, 63, 2, .eq⟩, [0x00]) := by decide
theorem test_decode_table_word :
    decodeTableWord 32 0xF8000000 = some (.halt 0) ∧ decodeTableWord 32 0x90210702 = none := by decide

/-! ### One step of each instruction -/

theorem test_ldb_signed : reg (run 0x00210700 [(2, 0x200)] loads) 1 = some 0xFFFFFF80 := by decide
theorem test_ldb_zero_extended : reg (run 0x00210602 [(2, 0x100), (3, 0x100)] loads) 1 = some 0xFF := by decide
theorem test_ldh_signed : reg (run 0x08210702 [(2, 0x200)] loads) 1 = some 0xFFFFFF7F := by decide
theorem test_ldh_misaligned_before_bounds :
    fault (run 0x08210600 [(2, 0xFFF)] []) = some (.loadMisaligned 0x100 0xFFF) := by decide
theorem test_ldw_address_wraps : reg (run 0x10210600 [(2, 0xFFFFFFFF), (3, 0x205)] loads) 1 = some 0x12345678 := by decide
theorem test_ldw_into_ip : reg (run 0x17E10608 [(2, 0x200)] [(0x20A, 0x03)]) 63 = some 0x300 := by decide
theorem test_stb_drops_high_bits :
    bytes (run 0x20210701 [(1, 0xAABBCCDD), (2, 0x200)] []) 0x200 3 = some [0, 0xDD, 0] := by decide
theorem test_stb_address_wraps :
    bytes (run 0x20210600 [(1, 0xAABBCCDD), (2, 0xFFFFFFFF), (3, 1)] []) 0 1 = some [0xDD] := by decide
theorem test_sth : bytes (run 0x28210602 [(1, 0xAABBCCDD), (2, 0x200)] []) 0x201 4 = some [0, 0xCC, 0xDD, 0] := by decide
theorem test_sth_misaligned : fault (run 0x28210601 [(2, 0x200)] []) = some (.storeMisaligned 0x100 0x201) := by decide
theorem test_stw_last_word :
    bytes (run 0x30210600 [(1, 0xAABBCCDD), (2, 0xFFC)] []) 0xFFC 4 = some [0xAA, 0xBB, 0xCC, 0xDD] := by decide
theorem test_stw_stores_next_address : bytes (run 0x37E10600 [(2, 0x200)] []) 0x200 4 = some [0, 0, 1, 4] := by decide
theorem test_add_negative_offset : reg (run 0x402106FF [(2, 5), (3, 3)] []) 1 = some 7 := by decide
theorem test_add_reads_next_address : reg (run 0x40BF8004 [] []) 5 = some 0x108 := by decide
theorem test_mul_low_word : reg (run 0x48210600 [(2, 0x12345678), (3, 0x100)] []) 1 = some 0x34567800 := by decide
theorem test_mul_adds_offset_first : reg (run 0x48210601 [(2, 6), (3, 7)] []) 1 = some 0x30 := by decide
theorem test_div_unsigned : reg (run 0x50210600 [(2, 0xFFFFFFFE), (3, 2)] []) 1 = some 0x7FFFFFFF := by decide
theorem test_div_by_offset_zero :
    fault (run 0x502106FF [(2, 5), (3, 1)] []) = some (.divideByZero 0x100 0x502106FF) := by decide
theorem test_nor : reg (run 0x58210600 [(2, 0x0F0F0F0F), (3, 0xF0F00000)] []) 1 = some 0x0000F0F0 := by decide
theorem test_nor_extends_offset : reg (run 0x58210480 [] []) 1 = some 0x7F := by decide
theorem test_mask_xor_sar : reg (run 0x60830BDF [(5, 0x80000000), (6, 0x0F0F0F0F)] []) 4 = some 0xF0F0F0F0 := by decide
theorem test_mask_and_shr_other_source :
    reg (run 0x60830AA4 [(4, 0xFFFF), (5, 0x80000001), (6, 0xFF000000)] []) 4 = some 0x08000000 := by decide
theorem test_movi_shifts_right : reg (run 0x80224684 [] []) 1 = some 0x123 := by decide
theorem test_movi_zero_extends : reg (run 0x803FFFE0 [] []) 1 = some 0xFFFF := by decide
theorem test_addi : reg (run 0x883FFFE8 [(1, 0x100)] []) 1 = some 0x1FF := by decide
theorem test_addi_to_ip : reg (run 0x8FE00100 [] []) 63 = some 0x10C := by decide
theorem test_cmov_signed : reg (run 0x9021060A [(1, 9), (2, 0xFFFFFFFF), (3, 1)] []) 1 = some 0xFFFFFFFF := by decide
theorem test_cmov_unsigned_fails : reg (run 0x90210602 [(1, 9), (2, 0xFFFFFFFF), (3, 1)] []) 1 = some 9 := by decide
theorem test_cmp_writes_zero : reg (run 0x98210602 [(1, 0xDEADBEEF), (2, 2), (3, 1)] []) 1 = some 0 := by decide
theorem test_cmp_signed : reg (run 0x9821060A [(2, 0xFFFFFFFF), (3, 1)] []) 1 = some 1 := by decide
theorem test_cjmp_back : reg (run 0xB820FFA0 [(1, 4)] []) 63 = some 0xF8 := by decide
theorem test_cjmp_operands :
    reg (run 0xB840808A [(1, 0xFFFFFFFF), (2, 1)] []) 63 = some 0x114 ∧
      reg (run 0xB8408082 [(1, 0xFFFFFFFF), (2, 1)] []) 63 = some 0x104 := by decide
theorem test_in :
    reg (run 0xC0210601 [(2, 2), (3, 0x10)] []) 1 = some 0xAB ∧
      history (run 0xC0210601 [(2, 2), (3, 0x10)] []) = some [.portIn 2 0x11 0xAB] := by decide
theorem test_in_absent_device :
    fault (run 0xC0210601 [(1, 9), (2, 5), (3, 0x10)] []) = some (.device 0x100 5 0x11) := by decide
theorem test_out : history (run 0xC8210600 [(1, 0x12345678), (2, 1)] []) = some [.portOut 1 0 0x12345678] := by decide
theorem test_out_absent_device : fault (run 0xC8210600 [(1, 0x48), (2, 5)] []) = some (.device 0x100 5 0) := by decide
theorem test_dskr_unaligned :
    bytes (run 0xD0210600 [(1, 0x401), (2, 7)] []) 0x400 18 = some [0, 0xA0, 0xA1, 0xA2, 0xA3, 0xA4, 0xA5,
      0xA6, 0xA7, 0xA8, 0xA9, 0xAA, 0xAB, 0xAC, 0xAD, 0xAE, 0xAF, 0] := by decide
theorem test_dskr_device_before_memory :
    fault (run 0xD0210600 [(1, 0xFF4), (2, 7), (3, 9)] []) = some (.device 0x100 9 7) ∧
      fault (run 0xD0210600 [(1, 0xFF4), (2, 7)] []) = some (.storeAccess 0x100 0xFF4) := by decide
theorem test_dskw :
    history (run 0xD8210600 [(1, 0x200), (2, 7)] loads) = some [.diskWrite 0 7 [0x80, 0x01, 0xFF, 0x7F, 0x12, 0x34,
      0x56, 0x78, 0, 0, 0, 0, 0, 0, 0, 0]] := by decide
theorem test_dskw_outside : fault (run 0xD8210600 [(1, 0xFF8), (2, 7)] []) = some (.loadAccess 0x100 0xFF8) := by decide
theorem test_sys :
    system (run 0xEFFFFFFF [(62, 99)] []) = some (false, 99, 0x104, false) ∧
      reg (run 0xEFFFFFFF [(62, 99)] []) 63 = some 0x40 ∧ reg (run 0xEFFFFFFF [(62, 99)] []) 62 = some 99 := by decide
theorem test_iret :
    system (run 0xF0000000 [(62, 99)] []) = some (true, 5, 0x14, false) ∧
      reg (run 0xF0000000 [(62, 99)] []) 62 = some 5 ∧ reg (run 0xF0000000 [(62, 99)] []) 63 = some 0x14 := by decide
theorem test_halt :
    system (run 0xFFFFFFFF [] []) = some (false, 5, 0x14, true) ∧ reg (run 0xFFFFFFFF [] []) 63 = some 0x104 := by decide
theorem test_reserved_opcodes_fault :
    ([0x1FFFFFFF, 0x38000000, 0x68000000, 0x70000000, 0x78000000, 0xA0000000, 0xA8000000, 0xB0000000,
      0xE0000000].all fun w => fault (run w [] []) = some (.illegalInstruction 0x100 (BitVec.ofNat 32 w))) = true := by decide
theorem test_illegal_words_fault :
    ([0x90210608, 0x90210612, 0x90210702, 0x9821060F, 0x98210683, 0xB820FFB0, 0xB820802C, 0x602107FF].all fun w =>
      fault (run w [(1, 9), (2, 0xFFFFFFFF), (3, 1)] []) = some (.illegalInstruction 0x100 (BitVec.ofNat 32 w))) = true := by decide
theorem test_fetch_faults :
    fault (step (start 0x102 [] [])) = some (.fetchMisaligned 0x102) ∧
      fault (step (start 0x1000 [] [])) = some (.fetchAccess 0x1000) ∧
      fault (step (start 0xFFFFFFFE [] [])) = some (.fetchMisaligned 0xFFFFFFFE) := by decide
theorem test_interrupt :
    system (step { start 0x20 [(62, 5)] [] with ie := true, env := { Env.silent with irqLevels := [true] } }) =
      some (false, 5, 0x20, false) := by decide
theorem test_masked_interrupt :
    reg (step { (start 0x20 [] []).withFetchWord 32 0x80200020 with env := { Env.silent with irqLevels := [true] } }) 1 =
      some 1 := by decide
theorem test_first_step_after_reset : reg (step (State.reset.withFetchWord 32 0x803FFFE0)) 1 = some 0xFFFF := by decide

/-- The truth table of 95_test_vectors.md, its row for 0x80000000 and 0x7FFFFFFF. -/
theorem test_condition_row :
    [CmpMode.nz, .le, .lt, .eq, .az, .gt, .ge, .ne, .sle, .slt, .sgt, .sge].map
      (fun c => condition c 0x80000000 0x7FFFFFFF) =
    [some true, some false, some false, some false, some false, some true, some true, some true, some true, some true,
      some false, some false] := by decide

/-! ### Witnesses: a state and operands that meet the hypotheses of each statement -/

/-- A step that executes: everything `State.Executes` asks. -/
def executes (s : State) (w : Word) (i : Instr) : Bool :=
  s.halted == false && s.takesIrq == false && decide (s.fetch = .ok w) && decide (decodeWord w = .ok i)

theorem executes_of (s : State) (w : Word) (i : Instr) (h : executes s w i = true) : s.Executes i := by
  simp only [executes, Bool.and_eq_true, beq_iff_eq, decide_eq_true_eq] at h
  exact ⟨w, ⟨h.1.1.1, h.1.1.2, h.1.2⟩, h.2⟩

/-- A step that answers a state. -/
theorem next_of (o : Host.Outcome State Fault Refusal) (h : (reg o 0).isSome = true) : ∃ t, o = .next t := by
  cases o with
  | next t => exact ⟨t, rfl⟩
  | fault r => cases h
  | refused r => cases h

/-- A step that faults. -/
theorem fault_of (o : Host.Outcome State Fault Refusal) (r : Fault) (h : fault o = some r) : o = .fault r := by
  cases o with
  | next t => cases h
  | fault q => cases h; rfl
  | refused q => cases h

theorem test_witness_DecodeOfEncode : (Instr.mask ⟨63, 63, 63, .xor, .sar, 31⟩).wf = true := by decide
theorem test_witness_EncodeOfDecode : decodeWord 0xFFFFFFFF = .ok (.halt 0x7FFFFFF) := by decide
theorem test_witness_DecodeOfBytes :
    (Instr.cjmp ⟨63, 63, 0x200, .sge⟩).wf = true ∧ ([0xB8, 0x20, 0xFF] : List Byte).length < 4 := by decide
theorem test_witness_IllegalWordsExactly :
    (vector 0x90210702 [] []).Fetches 0x90210702 ∧ IllegalWord 0x90210702 ∧
      (vector 0x90210602 [] []).Fetches 0x90210602 ∧ ¬IllegalWord 0x90210602 := by unfold State.Fetches IllegalWord; decide
theorem test_witness_ReservedOpcodesFault :
    (0x1FFFFFFF : Word).extractLsb' 27 5 = 0x03 ∧ (0xE0000000 : Word).extractLsb' 27 5 = 0x1c ∧
      (vector 0x1FFFFFFF [] []).Fetches 0x1FFFFFFF := by unfold State.Fetches; decide
theorem test_witness_MemReadIsBigEndian :
    ((start 0 [] loads).memRead .load 0xFFE 2 = .ok 0 ∧ (start 0 [] loads).memRead .load 0x204 4 = .ok 0x12345678) ∧
      (start 0 [] loads).memRead .load 0x1000 1 = .error (.loadAccess 0xFFFFFFFC 0x1000) ∧
      (start 0 [] loads).memRead .fetch 0xFFFFFFFE 4 = .error (.fetchMisaligned 0xFFFFFFFE) := by decide
theorem test_witness_MemWriteIsBigEndian :
    fault (finishStore ((start 0 [] []).memWrite 0xFFE 4 0x11223344)) = some (.storeMisaligned 0xFFFFFFFC 0xFFE) ∧
      fault (finishStore ((start 0 [] []).memWrite 0x1000 4 0x11223344)) = some (.storeAccess 0xFFFFFFFC 0x1000) ∧
      bytes (finishStore ((start 0 [] []).memWrite 0xFFC 4 0x11223344)) 0xFFB 6 = some [0, 0x11, 0x22, 0x33, 0x44, 0] := by decide
theorem test_witness_MixedWidthsShareBytes : ∃ t, (start 0 [] loads).memWrite 0x204 4 0x11223344 = .ok t := ⟨_, rfl⟩
theorem test_witness_FetchIsBigEndian : (start 0x200 [] loads).fetch = .ok 0x8001FF7F := by decide
theorem test_witness_FetchSeesStores :
    ∃ t, exec (.stw ⟨1, 2, 3, false, 0⟩) (start 0x104 [(2, 0x104)] []) = .next t := next_of _ (by decide)
theorem test_witness_LdbLoadsExtendedByte :
    (effectiveAddress ⟨1, 2, 3, true, 0⟩ (start 0x104 [(2, 0xFFF)] [])).toNat < (start 0x104 [] []).cfg.memSize ∧
      ¬(effectiveAddress ⟨1, 2, 3, true, 0⟩ (start 0x104 [(2, 0x1000)] [])).toNat < (start 0x104 [] []).cfg.memSize := by decide
theorem test_witness_LdhLoadsExtendedHalfword :
    effectiveAddress ⟨1, 2, 3, true, 0⟩ (start 0x104 [(2, 0xFFF)] []) = 0xFFF ∧
      effectiveAddress ⟨1, 2, 3, true, 0⟩ (start 0x104 [(2, 0x1000)] []) = 0x1000 ∧
      reg (exec (.ldh ⟨1, 2, 3, false, 0⟩) (start 0x104 [(2, 0xFFE)] [(0xFFE, 0x80), (0xFFF, 0x01)])) 1 = some 0x8001 := by decide
theorem test_witness_LdwLoadsWord :
    fault (run 0x10210602 [(2, 0x200)] loads) = some (.loadMisaligned 0x100 0x202) ∧
      fault (run 0x10210604 [(2, 0xFFC)] []) = some (.loadAccess 0x100 0x1000) ∧
      reg (run 0x10210600 [(2, 0xFFC)] []) 1 = some 0 := by decide
theorem test_witness_StbStoresLowByte :
    fault (run 0x20210601 [(2, 0xFFF)] []) = some (.storeAccess 0x100 0x1000) ∧
      bytes (run 0x20210600 [(1, 0x1234), (2, 0xFFF)] []) 0xFFF 1 = some [0x34] := by decide
theorem test_witness_SthStoresLowHalfword :
    fault (run 0x28210600 [(2, 0x1000)] []) = some (.storeAccess 0x100 0x1000) ∧
      bytes (run 0x28210600 [(1, 0x123456), (2, 0xFFE)] []) 0xFFE 2 = some [0x34, 0x56] := by decide
theorem test_witness_StwStoresWord :
    fault (run 0x30210602 [(2, 0x200)] []) = some (.storeMisaligned 0x100 0x202) ∧
      fault (run 0x30210604 [(2, 0xFFC)] []) = some (.storeAccess 0x100 0x1000) := by decide
theorem test_witness_DivDividesOrFaults :
    operandB ⟨1, 2, 3, false, 0xFF⟩ (start 0x104 [(3, 1)] []) = 0 ∧
      operandB ⟨1, 2, 3, false, 0xFF⟩ (start 0x104 [(3, 0)] []) = 0xFFFFFFFF := by decide
theorem test_witness_MaskBlendsShifted :
    reg (run 0x6020841F [(2, 0xFFFFFFFF)] []) 1 = some 0x80000000 ∧
      reg (run 0x6020843F [(2, 0x80000000)] []) 1 = some 1 ∧ reg (run 0x60820B44 [(4, 0xFFFF), (5, 0x80000001)] []) 4 = some 0xF800FFFF := by decide
theorem test_witness_CmovMovesWhenHolds :
    CondHolds .slt 0xFFFFFFFF 1 ∧ ¬CondHolds .lt 0xFFFFFFFF 1 := by unfold CondHolds; decide
theorem test_witness_CmpWritesTruthValue : CondHolds .ge 5 5 ∧ ¬CondHolds .ne 5 5 := by unfold CondHolds; decide
theorem test_witness_CjmpJumpsWhenHolds : CondHolds .nz 0 4 ∧ ¬CondHolds .nz 4 0 := by unfold CondHolds; decide
theorem test_witness_PseudoInstructionsExpand :
    decodeWord 0xBFFF8007 = .ok (.cjmp ⟨63, 63, 0, .ne⟩) ∧ decodeWord 0xBFFF8003 = .ok (.cjmp ⟨63, 63, 0, .eq⟩) := by decide
theorem test_witness_InReadsPort :
    ((0xFFFFFFFF : Word).toNat : Int) = operandB ⟨1, 2, 3, false, 0xFF⟩ (start 0x104 [(2, 2)] []) ∧
      (start 0x104 [(2, 2)] []).devicePresent 2 = true ∧ (start 0x104 [(2, 2)] []).devicePresent 5 = false := by decide
theorem test_witness_OutWritesPort :
    ((0x11 : Word).toNat : Int) = operandB ⟨1, 2, 3, false, 1⟩ (start 0x104 [(2, 2), (3, 0x10)] []) ∧
      ({ start 0 [] [] with cfg := { platform with devices := .only [2] } }.devicePresent 2 = true) ∧
      ({ start 0 [] [] with cfg := { platform with devices := .only [2] } }.devicePresent 3 = false) := by decide
theorem test_witness_DskrReadsBlock :
    bytes (run 0xD0210600 [(1, 0xFF0), (2, 7)] []) 0xFEF 17 = some [0, 0xA0, 0xA1, 0xA2, 0xA3, 0xA4, 0xA5, 0xA6, 0xA7,
      0xA8, 0xA9, 0xAA, 0xAB, 0xAC, 0xAD, 0xAE, 0xAF] ∧
      fault (run 0xD0210600 [(1, 0xFF1), (2, 7)] []) = some (.storeAccess 0x100 0xFF1) := by decide
theorem test_witness_DskwWritesBlock :
    fault (run 0xD8210600 [(1, 0xFF1), (2, 7)] []) = some (.loadAccess 0x100 0xFF1) ∧
      fault (run 0xD8210600 [(1, 0xFF1), (2, 7), (3, 9)] []) = some (.device 0x100 9 7) := by decide
/-- A running machine with `IE = 1` and the request asserted. -/
def asserted : State := { start 0x20 [(62, 5)] [] with ie := true, env := { Env.silent with irqLevels := [true, false] } }

theorem test_witness_InterruptWinsOverInstruction :
    asserted.halted = false ∧ asserted.ie = true ∧ asserted.irqAsserted = true := by decide
theorem test_witness_EnvironmentAnswersInOrder :
    (asserted.cfg.hasIrq = true ∧ asserted.env.irqLevels = [true, false] ∧ asserted.halted = false ∧
        ∃ t, step asserted = .next t) ∧
      ((start 0x104 [(2, 2)] []).devicePresent 2 = true ∧ (start 0x104 [(2, 2)] []).env.inAnswers = [0xAB]) ∧
      (0xFF0 + platform.diskBlockSize ≤ platform.memSize ∧ platform.diskBlockSize ≤ (start 0 [] []).env.diskBytes.length) ∧
      { asserted with cfg := { platform with hasIrq := false } }.irqAsserted = false ∧ (start 0 [] []).ie = false := ⟨⟨rfl, rfl, rfl, next_of _ (by decide)⟩, by decide, by decide, by decide, by decide⟩
theorem test_witness_TrapRoundTrip :
    ∃ t u, exec (.sys 0) (start 0x104 [(62, 7)] []) = .next t ∧ exec (.iret 0) (t.setReg 1 9) = .next u ∧
      u.ip = 0x104 ∧ u.reg 1 = 9 := ⟨_, _, rfl, rfl, by decide, by decide⟩
theorem test_witness_StepRunsDecoded :
    (vector 0x00210700 [(2, 0x200)] loads).Executes (.ldb ⟨1, 2, 3, true, 0⟩) := executes_of _ 0x00210700 _ (by decide)
theorem test_witness_StepChecksInOrder :
    { asserted with halted := true }.halted = true ∧
      ((start 0x102 [] []).halted = false ∧ (start 0x102 [] []).takesIrq = false ∧ ((start 0x102 [] []).reg 63).toNat % 4 ≠ 0) ∧
      ((start 0x1000 [] []).takesIrq = false ∧ ((start 0x1000 [] []).reg 63).toNat % 4 = 0) ∧
      ((start 0xFFC [] []).takesIrq = false ∧ ((start 0xFFC [] []).reg 63).toNat + 4 ≤ platform.memSize) := by decide
theorem test_witness_NextInSequence :
    (vector 0xB8408082 [] []).Executes (.cjmp ⟨2, 1, 4, .lt⟩) ∧
      ((vector 0x20210601 [] []).Executes (.stb ⟨1, 2, 3, false, 1⟩) ∧ (63 : RegIdx) ∉ writes (.stb ⟨1, 2, 3, false, 1⟩) ∧
        ∃ t, step (vector 0x20210601 [] []) = .next t) := ⟨executes_of _ 0xB8408082 _ (by decide), executes_of _ 0x20210601 _ (by decide), by decide, next_of _ (by decide)⟩
theorem test_witness_FetchWordIsExecuted :
    (Instr.sys0 0x7FFFFFF).wf = true ∧ (start 0xFFC [] []).ip.toNat % 4 = 0 ∧
      (start 0xFFC [] []).ip.toNat + 4 ≤ (start 0xFFC [] []).cfg.memSize := by decide
theorem test_witness_FaultsAsTabled :
    (Instr.dskr ⟨1, 2, 3, false, 0⟩).wf = true ∧
      exec (.dskr ⟨1, 2, 3, false, 0⟩) (start 0x104 [(3, 9)] []) = .fault (.device 0x100 9 0) := ⟨by decide, fault_of _ _ (by decide)⟩
theorem test_witness_FaultsRecordOrigin :
    step (start 0x102 [] []) = .fault (.fetchMisaligned 0x102) ∧
      run 0x502106FF [(3, 1)] [] = .fault (.divideByZero 0x100 0x502106FF) := ⟨fault_of _ _ (by decide), fault_of _ _ (by decide)⟩
theorem test_witness_NoStepIsRefused : (Instr.iret 0).wf = true ∧ mayRaise (.iret 0) = [] := by decide
theorem test_witness_StepKeepsInvariant :
    (vector 0x30210604 [(1, 0xAABBCCDD), (2, 0x200)] loads).Inv ∧
      ∃ t, step (vector 0x30210604 [(1, 0xAABBCCDD), (2, 0x200)] loads) = .next t := ⟨by decide, next_of _ (by decide)⟩
theorem test_witness_ResetMeetsInvariant :
    platform.wf ∧ Memory.wf loads ∧ (∀ c ∈ loads, c.1 < platform.memSize) ∧ Config.platform.wf := by decide
theorem test_witness_ParametersNeverChange : ∃ t, step asserted = .next t := next_of _ (by decide)
theorem test_witness_IeChangesOnlyByTraps :
    system (step asserted) = some (false, 5, 0x20, false) ∧
      (start 0x100 [] []).ie = false ∧ system (run 0xF0000000 [] []) = some (true, 5, 0x14, false) := by decide
theorem test_witness_OnlyHaltHalts :
    system (run 0xF8000000 [] []) = some (false, 5, 0x14, true) ∧
      system (step { asserted with halted := true }) = some (true, 5, 0x14, true) := by decide
theorem test_witness_SaveRegistersOnlyByTraps :
    (start 0x100 [] []).s63 = 0x14 ∧ system (run 0xE8000000 [(62, 7)] []) = some (false, 7, 0x104, false) := by decide
theorem test_witness_RegistersWrittenAsTabled :
    (∃ t, exec (.iret 0) (start 0x104 [] []) = .next t) ∧ (61 : RegIdx) ∉ writes (.iret 0) := ⟨next_of _ (by decide), by decide⟩
theorem test_witness_OtherRegistersMakeNoDifference :
    (1 : RegIdx) ≠ 63 ∧ (1 : RegIdx) ∉ reads (.cmov ⟨4, 2, 3, .lt⟩) ∧ (1 : RegIdx) ∉ writes (.cmov ⟨4, 2, 3, .lt⟩) := by decide
theorem test_witness_MemoryChangesOnlyByStores :
    bytes (run 0x20210601 [(1, 0xDD), (2, 0x200)] []) 0x201 1 = some [0xDD] ∧
      (vector 0x20210601 [(1, 0xDD), (2, 0x200)] []).mem.read 0x201 = 0 := by decide
theorem test_witness_HistoryOnlyGrows :
    history (run 0xC8210600 [(1, 0x48), (2, 1)] []) = some [.portOut 1 0 0x48] ∧
      (vector 0xC8210600 [(1, 0x48), (2, 1)] []).env.events = [] := by decide

end Sys2Proof.Tests
end

/-! The scope family: the parameters of 00_scope.md R6 are constants of a run, and memory stays canonical and inside
`MEM_SIZE` (20_memory.md R40). All that a step does to these two fields is said in `step_cfg` and `step_mem_cases`. -/

namespace Sys2Proof.Machine

/-- No instruction changes a parameter. -/
theorem exec_cfg {i : Instr} {s t : State} (h : exec i s = .next t) : t.cfg = s.cfg := by
  obtain ⟨r, v, -, rfl⟩ | ⟨rfl, -⟩ | ⟨a, bs, -, -, rfl⟩ | ⟨f, -, -, rfl⟩ | ⟨f, -, -, rfl⟩ | ⟨f, -, -, -, rfl⟩ |
    ⟨f, -, -, -, rfl⟩ | ⟨low, -, rfl⟩ | ⟨low, -, rfl⟩ | ⟨low, -, rfl⟩ := exec_next_cases h
  all_goals rfl

/-- An instruction leaves memory alone, or it is a store that lays a run of bytes down inside memory. -/
theorem exec_mem_cases {i : Instr} {s t : State} (h : exec i s = .next t) :
    t.mem = s.mem ∨
    (storesToMemory i = true ∧ ∃ a bs, a + bs.length ≤ s.cfg.memSize ∧ t.mem = s.mem.writeBytes a bs) := by
  obtain ⟨r, v, -, rfl⟩ | ⟨rfl, -⟩ | ⟨a, bs, hi, hb, rfl⟩ | ⟨f, -, -, rfl⟩ | ⟨f, -, -, rfl⟩ | ⟨f, rfl, -, hb, rfl⟩ |
    ⟨f, -, -, -, rfl⟩ | ⟨low, -, rfl⟩ | ⟨low, -, rfl⟩ | ⟨low, -, rfl⟩ := exec_next_cases h
  case inr.inr.inl => exact .inr ⟨hi, a, bs, hb, rfl⟩
  case inr.inr.inr.inr.inr.inl => exact .inr ⟨rfl, _, _, by simpa using hb, rfl⟩
  all_goals exact .inl rfl

/-- No step changes a parameter. -/
theorem step_cfg {s t : State} (h : step s = .next t) : t.cfg = s.cfg := by
  obtain ⟨-, rfl⟩ | ⟨-, rfl⟩ | ⟨w, i, -, -, hx⟩ := step_next_cases h
  · rfl
  · simp
  · simpa using exec_cfg hx

/-- A step leaves memory alone, or it executes a store that lays a run of bytes down inside memory. -/
theorem step_mem_cases {s t : State} (h : step s = .next t) :
    t.mem = s.mem ∨
    ∃ i, s.Executes i ∧ storesToMemory i = true ∧
      ∃ a bs, a + bs.length ≤ s.cfg.memSize ∧ t.mem = s.mem.writeBytes a bs := by
  obtain ⟨-, rfl⟩ | ⟨-, rfl⟩ | ⟨w, i, hf, hd, hx⟩ := step_next_cases h
  · exact .inl rfl
  · exact .inl (by simp)
  · exact (exec_mem_cases hx).imp (by simp) fun ⟨hi, hw⟩ => ⟨i, ⟨w, hf, hd⟩, hi, by simpa using hw⟩

/-- The invariant looks at the parameters and memory only. -/
theorem State.Inv.of_cfg_mem {s t : State} (h : s.Inv) (hc : t.cfg = s.cfg) (hm : t.mem = s.mem) : t.Inv := by
  rw [State.Inv, hc, hm]
  exact h

/-- A run of bytes laid down inside memory keeps the invariant. -/
theorem State.Inv.of_writeBytes {s t : State} (h : s.Inv) {a : Nat} {bs : List Byte}
    (hb : a + bs.length ≤ s.cfg.memSize) (hc : t.cfg = s.cfg) (hm : t.mem = s.mem.writeBytes a bs) : t.Inv := by
  obtain ⟨hcfg, hwf, hin⟩ := h
  rw [State.Inv, hc, hm]
  exact ⟨hcfg, Memory.wf_writeBytes hwf a bs, Memory.writeBytes_below hin a bs hb⟩

/-- Settles O49: memory is as before, or a run of bytes was laid down inside it. -/
theorem stepKeepsInvariant : Obligations.StepKeepsInvariant := by
  intro s t hs h
  obtain hm | ⟨i, -, -, a, bs, hb, hm⟩ := step_mem_cases h
  · exact hs.of_cfg_mem (step_cfg h) hm
  · exact hs.of_writeBytes hb (step_cfg h) hm

/-- Settles O52: the field `cfg` is a constant of every step (log entry 1). -/
theorem parametersNeverChange : Obligations.ParametersNeverChange := fun _ _ h => step_cfg h

/-- Reset takes the parameters and memory as they are given. -/
theorem State.afterReset_inv {cfg : Config} {mem : Memory} (hcfg : cfg.wf) (hmem : mem.wf)
    (hin : ∀ c ∈ mem, c.1 < cfg.memSize) (x : Vector Word 64) (s62 s63 : Word) (env : Env) :
    (State.afterReset cfg x s62 s63 mem env).Inv :=
  ⟨hcfg, hmem, hin⟩

/-- The platform of `State.reset` meets R6 (log entry 2). -/
theorem Config.platform_wf : Config.platform.wf := by decide

/-- Settles O50: `State.reset` is the state right after reset on `Config.platform`, with nothing listed in memory. -/
theorem resetMeetsInvariant : Obligations.ResetMeetsInvariant :=
  ⟨fun _ x s62 s63 _ env hcfg hmem hin => State.afterReset_inv hcfg hmem hin x s62 s63 env,
    State.afterReset_inv Config.platform_wf State.reset_mem_wf (fun _ hc => nomatch hc) _ _ _ _⟩

end Sys2Proof.Machine

/-! The state family: which instructions touch the registers and the system state of 10_state.md. Two facts about a step
carry it: `step_system_cases`, all that a step can do to `IE`, the save registers and `halted`, and
`exec_reg_of_not_writes`, R22's column of writes. R22's column of reads is `exec_setReg`: writing a register that an
instruction does not use commutes with each operation the instruction is made of. -/

namespace Sys2Proof.Machine

/-! ### The system state (R26, R27, R28) -/

/-- Only SYS, IRET and HALT change the system state. -/
theorem exec_system_cases {i : Instr} {s t : State} (h : exec i s = .next t) :
    SameSystem s t ∨
    (∃ low, i = .sys low ∧ t = s.trapEntry .sys) ∨
    (∃ low, i = .iret low ∧ t = s.trapReturn) ∨
    (∃ low, i = .halt low ∧ t = { s with halted := true }) := by
  obtain ⟨r, v, -, rfl⟩ | ⟨rfl, -⟩ | ⟨a, bs, -, -, rfl⟩ | ⟨f, -, -, rfl⟩ | ⟨f, -, -, rfl⟩ | ⟨f, -, -, -, rfl⟩ |
    ⟨f, -, -, -, rfl⟩ | hsys | hiret | hhalt := exec_next_cases h
  case inr.inr.inr.inr.inr.inr.inr.inl => exact .inr (.inl hsys)
  case inr.inr.inr.inr.inr.inr.inr.inr.inl => exact .inr (.inr (.inl hiret))
  case inr.inr.inr.inr.inr.inr.inr.inr.inr => exact .inr (.inr (.inr hhalt))
  all_goals exact .inl ⟨rfl, rfl, rfl, rfl, rfl⟩

/-- Only an interrupt entry, SYS, IRET and HALT change the system state. -/
theorem step_system_cases {s t : State} (h : step s = .next t) :
    SameSystem s t ∨
    (s.Interrupts ∧ t = s.afterIrqRead.trapEntry .irq) ∨
    (∃ low, s.Executes (.sys low) ∧ t = s.afterIrqRead.advanceIp.trapEntry .sys) ∨
    (∃ low, s.Executes (.iret low) ∧ t = s.afterIrqRead.advanceIp.trapReturn) ∨
    (∃ low, s.Executes (.halt low) ∧ t = { s.afterIrqRead.advanceIp with halted := true }) := by
  obtain ⟨-, rfl⟩ | hirq | ⟨w, i, hf, hd, hx⟩ := step_next_cases h
  · exact .inl ⟨rfl, rfl, rfl, rfl, rfl⟩
  · exact .inr (.inl hirq)
  · obtain hsame | ⟨low, rfl, ht⟩ | ⟨low, rfl, ht⟩ | ⟨low, rfl, ht⟩ := exec_system_cases hx
    · exact .inl (by simpa [SameSystem] using hsame)
    · exact .inr (.inr (.inl ⟨low, ⟨w, hf, hd⟩, ht⟩))
    · exact .inr (.inr (.inr (.inl ⟨low, ⟨w, hf, hd⟩, ht⟩)))
    · exact .inr (.inr (.inr (.inr ⟨low, ⟨w, hf, hd⟩, ht⟩)))

/-- Settles O53: trap entry leaves `IE` at 0, IRET at 1, and HALT does not touch it. -/
theorem ieChangesOnlyByTraps : Obligations.IeChangesOnlyByTraps := by
  intro s t h hne
  obtain ⟨hie, -⟩ | ⟨hirq, rfl⟩ | ⟨low, hx, rfl⟩ | ⟨low, hx, rfl⟩ | ⟨low, hx, rfl⟩ := step_system_cases h
  · exact absurd hie hne
  · exact .inr ⟨rfl, .inl hirq⟩
  · exact .inr ⟨rfl, .inr ⟨low, hx⟩⟩
  · exact .inl ⟨rfl, low, hx⟩
  · exact absurd (by simp) hne

/-- A halted machine answers the same state (R245, log entry 10). -/
theorem step_of_halted {s : State} (h : s.halted = true) : step s = .next s := by
  rw [step, if_pos h]

/-- Settles O54: no other change of the system state moves `halted`. -/
theorem onlyHaltHalts : Obligations.OnlyHaltHalts := by
  intro s t h
  constructor
  · intro ht
    obtain ⟨-, -, -, hhalted, -⟩ | ⟨-, rfl⟩ | ⟨low, -, rfl⟩ | ⟨low, -, rfl⟩ | ⟨low, hx, -⟩ := step_system_cases h
    · exact .inl (hhalted ▸ ht)
    · exact .inl (by simpa using ht)
    · exact .inl (by simpa using ht)
    · exact .inl (by simpa using ht)
    · exact .inr ⟨low, hx⟩
  · intro hs
    rw [step_of_halted hs] at h
    cases h
    rfl

/-- Settles O55: the interrupt entry saves the IP of the instruction that did not run, SYS the incremented one. -/
theorem saveRegistersOnlyByTraps : Obligations.SaveRegistersOnlyByTraps := by
  intro s t h hne
  obtain ⟨-, h62, h63, -⟩ | ⟨hirq, rfl⟩ | ⟨low, hx, rfl⟩ | ⟨low, -, rfl⟩ | ⟨low, -, rfl⟩ := step_system_cases h
  · exact absurd h63 (hne.resolve_left (absurd h62))
  · exact ⟨State.afterIrqRead_reg _ _, .inl ⟨hirq, State.afterIrqRead_ip _⟩⟩
  · have h62 : s.afterIrqRead.advanceIp.reg savedIndex = s.reg 62 := by
      rw [State.advanceIp_reg, if_neg (by decide), State.afterIrqRead_reg]
      rfl
    have h63 : s.afterIrqRead.advanceIp.ip = s.reg 63 + 4 := by
      rw [State.advanceIp_ip, State.afterIrqRead_ip]
      rfl
    exact ⟨h62, .inr ⟨⟨low, hx⟩, h63⟩⟩
  · simp at hne
  · simp at hne

/-! ### Registers (R22, R24) -/

/-- An instruction leaves alone every register that the writes column of R22 does not give it. -/
theorem exec_reg_of_not_writes {i : Instr} {s t : State} (h : exec i s = .next t) {k : RegIdx} (hk : k ∉ writes i) :
    t.reg k = s.reg k := by
  obtain ⟨r, v, hr, rfl⟩ | ⟨rfl, -⟩ | ⟨a, bs, -, -, rfl⟩ | ⟨f, rfl, -, rfl⟩ | ⟨f, -, -, rfl⟩ | ⟨f, -, -, -, rfl⟩ |
    ⟨f, -, -, -, rfl⟩ | ⟨low, rfl, rfl⟩ | ⟨low, rfl, rfl⟩ | ⟨low, -, rfl⟩ := exec_next_cases h
  case inl => exact State.setReg_reg_ne _ _ _ _ (ne_of_mem_of_not_mem hr hk).symm
  case inr.inr.inr.inl => exact State.setReg_reg_ne _ _ _ _ (List.ne_of_not_mem_cons hk)
  case inr.inr.inr.inr.inr.inr.inr.inl =>
    have h63 : k ≠ ipIndex := List.ne_of_not_mem_cons hk
    rw [State.trapEntry_reg, if_neg h63]
  case inr.inr.inr.inr.inr.inr.inr.inr.inl =>
    have h63 : k ≠ ipIndex := fun e => hk (by simp [writes, e, ipIndex])
    have h62 : k ≠ savedIndex := List.ne_of_not_mem_cons hk
    rw [State.trapReturn_reg, if_neg h63, if_neg h62]
  all_goals rfl

/-- Settles O56: of all that an instruction can do, only a register write it is given, a trap and its return reach `x`. -/
theorem registersWrittenAsTabled : Obligations.RegistersWrittenAsTabled :=
  fun _ _ _ h _ hk => exec_reg_of_not_writes h hk

/-- The step of an instruction is its meaning at the incremented IP (R244). -/
theorem step_of_executes {s : State} {i : Instr} (h : s.Executes i) : step s = exec i s.afterIrqRead.advanceIp := by
  obtain ⟨w, hf, hd⟩ := h
  rw [step_of_fetches hf, hd]

/-- Settles O44: the IP is incremented at the fetch, and the instruction leaves it there. -/
theorem nextInSequence : Obligations.NextInSequence := by
  intro s t i hx hk h
  rw [step_of_executes hx] at h
  calc t.reg 63 = s.afterIrqRead.advanceIp.ip := exec_reg_of_not_writes h hk
    _ = s.afterIrqRead.ip + 4 := State.advanceIp_ip _
    _ = s.reg 63 + 4 := by rw [State.afterIrqRead_ip]; rfl

/-! ### A write of a register that is not used (R22) -/

section UnusedRegister
variable {s : State} {k : RegIdx} {v : Word}

theorem effectiveAddress_setReg {f : FormatR} (hx : k ≠ f.x) (hy : k ≠ f.y) :
    effectiveAddress f (s.setReg k v) = effectiveAddress f s := by
  simp only [effectiveAddress, State.setReg_reg_ne _ _ _ _ hx.symm, State.setReg_reg_ne _ _ _ _ hy.symm]

theorem offsetSum_setReg {f : FormatR} (hy : k ≠ f.y) : offsetSum f (s.setReg k v) = offsetSum f s := by
  simp only [offsetSum, State.setReg_reg_ne _ _ _ _ hy.symm]

/-- `Blend` reads `x[f.x]` in every mode but MOV (R142). -/
theorem blend_setReg {b : BlendMode} {j : RegIdx} (h : b ≠ .mov → k ≠ j) (m : Word) :
    blend b ((s.setReg k v).reg j) m = blend b (s.reg j) m := by
  by_cases hb : b = .mov
  · subst hb
    rfl
  · rw [State.setReg_reg_ne _ _ _ _ (h hb).symm]

@[simp] theorem State.setReg_devicePresent (dev : Word) : (s.setReg k v).devicePresent dev = s.devicePresent dev := rfl

@[simp] theorem State.setReg_inMemory (a : Word) (n : Nat) : (s.setReg k v).inMemory a n = s.inMemory a n := rfl

/-- A load into another register. -/
theorem State.setReg_finishLoad {r : RegIdx} (hr : k ≠ r) (x : Except Fault Word) :
    (s.setReg k v).finishLoad r x = mapNext (fun t => t.setReg k v) (s.finishLoad r x) := by
  cases x with
  | ok w => exact congrArg Host.Outcome.next (State.setReg_comm s k r v w hr.symm)
  | error flt => rfl

variable (hk : k ≠ 63)
include hk

theorem State.setReg_ip : (s.setReg k v).ip = s.ip := State.setReg_reg_ne _ _ _ _ hk.symm

theorem State.setReg_fetchedFrom : (s.setReg k v).fetchedFrom = s.fetchedFrom := by
  rw [State.fetchedFrom, State.setReg_ip hk, State.fetchedFrom]

theorem State.setReg_illegal (i : Instr) : (s.setReg k v).illegal i = s.illegal i := by
  rw [State.illegal, State.setReg_fetchedFrom hk, State.illegal]

theorem State.setReg_noDevice (dev info : Word) : (s.setReg k v).noDevice dev info = s.noDevice dev info := by
  rw [State.noDevice, State.setReg_fetchedFrom hk, State.noDevice]

theorem State.setReg_misaligned (a : Access) (addr : Word) : (s.setReg k v).misaligned a addr = s.misaligned a addr := by
  cases a <;> simp [State.misaligned, State.setReg_fetchedFrom hk]

theorem State.setReg_outside (a : Access) (addr : Word) : (s.setReg k v).outside a addr = s.outside a addr := by
  cases a <;> simp [State.outside, State.setReg_fetchedFrom hk]

theorem State.setReg_checkAccess (a : Access) (addr : Word) (n : Nat) :
    (s.setReg k v).checkAccess a addr n = s.checkAccess a addr n := by
  simp only [State.checkAccess, State.setReg_misaligned hk, State.setReg_outside hk, State.setReg_inMemory]

theorem State.setReg_memRead (a : Access) (addr : Word) (n : Nat) :
    (s.setReg k v).memRead a addr n = s.memRead a addr n := by
  simp only [State.memRead, State.setReg_checkAccess hk, State.setReg_mem]

theorem State.setReg_finishStore (addr : Word) (n : Nat) (w : Word) :
    finishStore ((s.setReg k v).memWrite addr n w) =
      mapNext (fun t => t.setReg k v) (finishStore (s.memWrite addr n w)) := by
  simp only [State.memWrite, State.setReg_checkAccess hk]
  cases s.checkAccess .store addr n <;> rfl

theorem State.setReg_jump (target : Word) : (s.setReg k v).jump target = (s.jump target).setReg k v :=
  State.setReg_comm _ _ _ _ _ hk.symm

theorem State.setReg_trapEntry (h62 : k ≠ 62) (c : TrapCause) :
    (s.setReg k v).trapEntry c = (s.trapEntry c).setReg k v := by
  have hs62 : (s.setReg k v).reg savedIndex = s.reg savedIndex := State.setReg_reg_ne _ _ _ _ h62.symm
  rw [State.trapEntry, hs62, State.setReg_ip hk]
  exact State.setReg_jump (s := { s with s62 := s.reg savedIndex, s63 := s.ip, ie := false }) hk (s.vector c)

theorem State.setReg_trapReturn (h62 : k ≠ 62) : (s.setReg k v).trapReturn = s.trapReturn.setReg k v := by
  have hs62 : (s.setReg k v).setReg savedIndex s.s62 = (s.setReg savedIndex s.s62).setReg k v :=
    State.setReg_comm _ _ _ _ _ h62.symm
  rw [State.trapReturn, State.setReg_s62, State.setReg_s63, hs62, State.setReg_jump hk]
  rfl

/-- Writing a register that an instruction neither reads nor writes, before it or after it, is the same (R22). -/
theorem exec_setReg {i : Instr} (hr : k ∉ reads i) (hw : k ∉ writes i) :
    exec i (s.setReg k v) = mapNext (fun t => t.setReg k v) (exec i s) := by
  have reg : ∀ {j : RegIdx}, k ≠ j → (s.setReg k v).reg j = s.reg j :=
    fun h => State.setReg_reg_ne _ _ _ _ h.symm
  have write : ∀ {j : RegIdx} (w : Word), k ≠ j →
      (s.setReg k v).setReg j w = (s.setReg j w).setReg k v :=
    fun w h => State.setReg_comm _ _ _ _ _ h.symm
  cases i <;> simp only [reads, writes, List.mem_cons, List.not_mem_nil, not_or, or_false, not_false_eq_true] at hr hw
  case lde | ste | alu5 | alu6 | alu7 | mov4 | mov5 | mov6 | sys0 =>
    exact State.setReg_illegal hk _
  case ldb f | ldh f | ldw f =>
    obtain ⟨hx, hy⟩ := hr
    simp only [exec, execLdb, execLdh, execLdw, effectiveAddress_setReg hx hy, State.setReg_memRead hk,
      State.setReg_finishLoad hw]
  case stb f | sth f | stw f =>
    obtain ⟨hx, hy, hv⟩ := hr
    simp only [exec, execStb, execSth, execStw, effectiveAddress_setReg hx hy, reg hv, State.setReg_finishStore hk]
  case add f | mul f | nor f =>
    obtain ⟨hx, hy⟩ := hr
    simp only [exec, execAdd, execMul, execNor, reg hx, reg hy, offsetSum_setReg hy, write _ hw, mapNext]
  case div f =>
    obtain ⟨hx, hy⟩ := hr
    simp only [exec, execDiv, reg hx, offsetSum_setReg hy, write _ hw, State.setReg_fetchedFrom hk, State.setReg_cfg]
    split <;> rfl
  case mask f =>
    have hx : f.blend ≠ .mov → k ≠ f.x := fun hb e => hr (by simp [hb, e])
    have hy : k ≠ f.y := fun e => hr (by split <;> simp [e])
    simp only [exec, execMask, reg hy, blend_setReg hx, write _ hw, State.setReg_illegal hk]
    split <;> rfl
  case movi f => exact congrArg Host.Outcome.next (write _ hw)
  case addi f => simp only [exec, execAddi, reg hr, write _ hw, mapNext]
  case cmov f | cmp f =>
    obtain ⟨hx, hy⟩ := hr
    simp only [exec, execCmov, execCmp, reg hx, reg hy, write _ hw, State.setReg_illegal hk]
    split <;> rfl
  case cjmp f =>
    obtain ⟨hx, hy⟩ := hr
    simp only [exec, execCjmp, reg hx, reg hy, State.setReg_ip hk, State.setReg_jump hk, State.setReg_illegal hk]
    split <;> rfl
  case inPort f =>
    obtain ⟨hx, hy⟩ := hr
    simp only [exec, execInPort, reg hx, offsetSum_setReg hy, write _ hw, State.setReg_devicePresent,
      State.setReg_env, State.setReg_noDevice hk]
    split <;> rfl
  case outPort f =>
    obtain ⟨hx, hy, hv⟩ := hr
    simp only [exec, execOutPort, reg hx, reg hv, offsetSum_setReg hy, State.setReg_devicePresent,
      State.setReg_env, State.setReg_noDevice hk]
    split <;> rfl
  case dskr f | dskw f =>
    obtain ⟨hb, hx, hy⟩ := hr
    simp only [exec, execDskr, execDskw, reg hb, reg hx, reg hy, State.setReg_devicePresent, State.setReg_env,
      State.setReg_cfg, State.setReg_mem, State.setReg_inMemory, State.setReg_noDevice hk, State.setReg_outside hk]
    split
    · split <;> rfl
    · rfl
  case sys => exact congrArg Host.Outcome.next (State.setReg_trapEntry hk hr.1 .sys)
  case iret => exact congrArg Host.Outcome.next (State.setReg_trapReturn hk hw.1)
  case halt => rfl

end UnusedRegister

/-- Settles O57: the two runs differ by a write that moves past the instruction. -/
theorem otherRegistersMakeNoDifference : Obligations.OtherRegistersMakeNoDifference :=
  fun _ _ _ _ hk hr hw => exec_setReg hk hr hw

/-! ### Memory (R30, R49, R50) -/

/-- Settles O58: a step that is no store leaves memory as it was. -/
theorem memoryChangesOnlyByStores : Obligations.MemoryChangesOnlyByStores := by
  rintro s t h ⟨a, ha⟩
  obtain hm | ⟨i, hx, hi, -⟩ := step_mem_cases h
  · exact absurd (by rw [hm]) ha
  · exact ⟨i, hx, hi⟩

/-! ### Reset (R33) -/

section AfterReset
variable (cfg : Config) (x : Vector Word 64) (s62 s63 : Word) (mem : Memory) (env : Env)

@[simp] theorem State.afterReset_ip : (State.afterReset cfg x s62 s63 mem env).ip = cfg.resetVector := by
  simp [State.afterReset, State.ip, State.reg]

theorem State.afterReset_reg {k : RegIdx} (h : k ≠ 63) :
    (State.afterReset cfg x s62 s63 mem env).reg k = x[k.toNat]'k.isLt := by
  have hn : ipIndex.toNat ≠ k.toNat := fun e => h (BitVec.eq_of_toNat_eq e.symm)
  exact Vector.getElem_set_ne ipIndex.isLt k.isLt hn

end AfterReset

/-- Settles O51: reset writes `x[63]` and takes everything else as it is given. -/
theorem resetSetsIpIeHalted : Obligations.ResetSetsIpIeHalted := by
  intro cfg x s62 s63 mem env s
  have hip : s.ip = cfg.resetVector := State.afterReset_ip cfg x s62 s63 mem env
  have hreg : ∀ k : RegIdx, k ≠ 63 → s.reg k = x[k.toNat]'k.isLt :=
    fun _ hk => State.afterReset_reg cfg x s62 s63 mem env hk
  exact ⟨hip, rfl, rfl, hreg, rfl, rfl, rfl, rfl, rfl, by rw [State.fetch, hip]⟩

end Sys2Proof.Machine

/-! The memory family: the rules of 20_memory.md. What MemWrite, the load of a program and a fetch have in common is said
by `State.HoldsWord`: a place of memory holds the four big-endian bytes of a word. Each width of MemRead gives bits of
that word (`State.HoldsWord.memRead`), and a fetch answers exactly the word held at `x[63]` (`State.fetch_eq_ok_iff`). -/

namespace Sys2Proof.Machine

/-! ### Addresses (R45) -/

/-- The effective address is the number R45 gives. -/
theorem effectiveAddress_toNat (f : FormatR) (s : State) :
    ((effectiveAddress f s).toNat : Int) = ((s.reg f.x).toNat + (s.reg f.y).toNat + f.o.toInt) % 2 ^ 32 := by
  have h := signExtend_toNat f.o
  rw [effectiveAddress, offset, BitVec.toNat_add, BitVec.toNat_add]
  omega

/-- The CJMP target is the number R45 gives. -/
theorem jumpTarget_toNat (f : FormatJ) (ip : Word) :
    ((ip + jumpOffset f).toNat : Int) = (ip.toNat + 4 * f.j.toInt) % 2 ^ 32 := by
  have h := signExtend_toNat f.j
  rw [jumpOffset, BitVec.toNat_add, BitVec.toNat_mul, show (4 : Word).toNat = 4 from rfl]
  omega

/-- Settles O7: each address is a sum of words, and a sum of words is taken modulo 2^32. -/
theorem addressesWrap : Obligations.AddressesWrap := by
  refine ⟨effectiveAddress_toNat, fun s => ?_, fun f s => jumpTarget_toNat f s.ip⟩
  rw [State.advanceIp_ip, BitVec.toNat_add]
  rfl

/-! ### Big-endian bytes (R42) -/

/-- The number that bytes of memory make, as the sum of R47. -/
theorem beValue_readBytes (m : Memory) (a n : Nat) :
    beValue (m.readBytes a n) =
      ((List.range n).map fun k => (m.read (a + k)).toNat * 2 ^ (8 * (n - 1 - k))).sum := by
  induction n generalizing a with
  | zero => rfl
  | succ n ih =>
    rw [Memory.readBytes, beValue, ih, List.range_succ_eq_map]
    simp [Function.comp_def, Nat.add_assoc, Nat.add_comm 1, Nat.sub_sub]

/-- Up to four bytes make a number that a word holds. -/
theorem beValue_readBytes_lt (m : Memory) (a : Nat) {n : Nat} (hn : n ≤ 4) : beValue (m.readBytes a n) < 2 ^ 32 :=
  calc beValue (m.readBytes a n) < 2 ^ (8 * n) := by simpa using beValue_lt (m.readBytes a n)
    _ ≤ 2 ^ 32 := Nat.pow_le_pow_right (by decide) (by omega)

/-- The big-endian bytes of a word are the only bytes that make its low bits. -/
theorem beBytes_eq_of_beValue {v : Word} {bs : List Byte} {n : Nat} (hn : bs.length = n)
    (h : v.toNat % 2 ^ (8 * n) = beValue bs) : beBytes v n = bs := by
  subst hn
  induction bs with
  | nil => rfl
  | cons b bs ih =>
    have hlt := beValue_lt bs
    rw [List.length_cons, Nat.mul_succ, Nat.pow_add, Nat.mod_mul, beValue] at h
    have hlow : v.toNat % 2 ^ (8 * bs.length) = beValue bs := by
      have := congrArg (· % 2 ^ (8 * bs.length)) h
      simpa [Nat.add_mod, Nat.mod_eq_of_lt hlt] using this
    have hhigh : v.toNat / 2 ^ (8 * bs.length) % 2 ^ 8 = b.toNat := by
      rw [hlow, Nat.mul_comm, Nat.add_comm] at h
      exact Nat.eq_of_mul_eq_mul_right (Nat.two_pow_pos _) (Nat.add_right_cancel h)
    have hb : v.extractLsb' (8 * bs.length) 8 = b := by
      apply BitVec.eq_of_toNat_eq
      rw [BitVec.extractLsb'_toNat, Nat.shiftRight_eq_div_pow, hhigh]
    rw [List.length_cons, beBytes, hb, ih hlow]

/-- A run of the big-endian bytes of a word is the big-endian bytes of the word shifted down to it. -/
theorem beBytes_slice (v : Word) {n k j lo : Nat} (h : k + j + lo = n) :
    ((beBytes v n).drop k).take j = beBytes (v >>> (8 * lo)) j := by
  apply List.ext_getElem
  · simp only [List.length_take, List.length_drop, beBytes_length]
    omega
  · intro i hi hi'
    rw [beBytes_length] at hi'
    rw [List.getElem_take, List.getElem_drop, beBytes_getElem, beBytes_getElem,
      show 8 * (n - 1 - (k + i)) = 8 * lo + 8 * (j - 1 - i) by omega]
    ext b hb
    simp [Nat.add_assoc]

/-- A run of the bytes that were read. -/
theorem Memory.readBytes_slice (m : Memory) (a : Nat) {n k j : Nat} (h : k + j ≤ n) :
    ((m.readBytes a n).drop k).take j = m.readBytes (a + k) j := by
  apply List.ext_getElem
  · simp only [List.length_take, List.length_drop, Memory.readBytes_length]
    omega
  · intro i hi hi'
    rw [List.getElem_take, List.getElem_drop, Memory.readBytes_getElem, Memory.readBytes_getElem, Nat.add_assoc]

/-! ### MemRead and MemWrite (R47, R48) -/

theorem State.memRead_misaligned (s : State) (k : Access) (addr : Word) (n : Nat) (h : addr.toNat % n ≠ 0) :
    s.memRead k addr n = .error (s.misaligned k addr) := by
  obtain ⟨-, e⟩ | ⟨ha, -⟩ | ⟨ha, -⟩ := s.memRead_cases k addr n
  · exact e
  · exact absurd ha h
  · exact absurd ha h

theorem State.memRead_outside (s : State) (k : Access) (addr : Word) (n : Nat) (h : addr.toNat % n = 0)
    (hb : s.cfg.memSize < addr.toNat + n) : s.memRead k addr n = .error (s.outside k addr) := by
  obtain ⟨ha, -⟩ | ⟨-, -, e⟩ | ⟨-, hin, -⟩ := s.memRead_cases k addr n
  · exact absurd h ha
  · exact e
  · exact absurd hin (Nat.not_le.2 hb)

/-- Settles O8: the two checks in their order, then a value below 2^32. -/
theorem memReadIsBigEndian : Obligations.MemReadIsBigEndian := by
  intro s addr n hn
  split
  next hmis => exact ⟨s.memRead_misaligned .load addr n hmis, s.memRead_misaligned .fetch addr n hmis⟩
  next hal =>
    have hal := not_not.1 hal
    split
    next hout => exact ⟨s.memRead_outside .load addr n hal hout, s.memRead_outside .fetch addr n hal hout⟩
    next hin =>
      have hin := Nat.not_lt.1 hin
      refine ⟨_, s.memRead_ok .load addr n hal hin, s.memRead_ok .fetch addr n hal hin, ?_⟩
      rw [BitVec.toNat_ofNat, Nat.mod_eq_of_lt (beValue_readBytes_lt _ _ (by omega)), beValue_readBytes]

/-- Settles O9: the two checks in their order, then a run of bytes laid down. -/
theorem memWriteIsBigEndian : Obligations.MemWriteIsBigEndian := by
  intro s addr v n _
  obtain ⟨hmis, e⟩ | ⟨hal, hout, e⟩ | ⟨hal, hin, e⟩ := s.memWrite_cases addr n v
  · rw [if_pos hmis]
    exact e
  · rw [if_neg (not_not.2 hal), if_pos (Nat.lt_of_not_le hout)]
    exact e
  · rw [if_neg (not_not.2 hal), if_neg (Nat.not_lt.2 hin)]
    refine ⟨_, e, fun k hk => ?_, ?_⟩
    · rw [Memory.read_writeBytes_inside _ _ _ _ (by simpa using hk), beBytes_getElem]
    · simpa using OnlyBytes.writeBytes s addr.toNat (beBytes v n)

/-! ### A word in memory (R41, R43, R57) -/

/-- The aligned place `a` is inside memory and holds the four big-endian bytes of the word `v`. -/
structure State.HoldsWord (s : State) (a v : Word) : Prop where
  aligned : a.toNat % 4 = 0
  inside : a.toNat + 4 ≤ s.cfg.memSize
  bytes : s.mem.readBytes a.toNat 4 = beBytes v 4

/-- A word laid down is held. -/
theorem State.holdsWord_of_writeBytes {s : State} {a v : Word} {m : Memory} (ha : a.toNat % 4 = 0)
    (hb : a.toNat + 4 ≤ s.cfg.memSize) (hm : s.mem = m.writeBytes a.toNat (beBytes v 4)) : s.HoldsWord a v :=
  ⟨ha, hb, by rw [hm]; exact Memory.readBytes_writeBytes m a.toNat (beBytes v 4)⟩

/-- A word write that succeeds leaves the word at its place. -/
theorem State.holdsWord_of_memWrite {s t : State} {a v : Word} (h : s.memWrite a 4 v = .ok t) : t.HoldsWord a v := by
  obtain ⟨-, e⟩ | ⟨-, -, e⟩ | ⟨ha, hb, e⟩ := s.memWrite_cases a 4 v <;> rw [e] at h <;> cases h
  exact State.holdsWord_of_writeBytes ha hb rfl

/-- A jump leaves memory alone. -/
theorem State.HoldsWord.jump {s : State} {a v : Word} (h : s.HoldsWord a v) (target : Word) :
    (s.jump target).HoldsWord a v := ⟨h.aligned, h.inside, h.bytes⟩

/-- An aligned read of `j` bytes from byte `k` of a word on gives its bits from `8 * lo` on, where `lo` bytes follow. -/
theorem State.HoldsWord.memRead {s : State} {a v : Word} (h : s.HoldsWord a v) (kind : Access) {k j lo : Nat}
    (hlo : k + j + lo = 4) (hj : 0 < j) (hal : (a.toNat + k) % j = 0) :
    s.memRead kind (a + BitVec.ofNat 32 k) j = .ok ((v.extractLsb' (8 * lo) (8 * j)).setWidth 32) := by
  obtain ⟨ha, hb, hbytes⟩ := h
  have haddr : (a + BitVec.ofNat 32 k).toNat = a.toNat + k := by
    rw [BitVec.toNat_add, BitVec.toNat_ofNat]
    omega
  have hval : beValue (s.mem.readBytes (a.toNat + k) j) = (v.extractLsb' (8 * lo) (8 * j)).toNat := by
    rw [← Memory.readBytes_slice (n := 4) _ _ (by omega), hbytes, beBytes_slice v hlo, beValue_beBytes,
      BitVec.toNat_ushiftRight, BitVec.extractLsb'_toNat]
  rw [State.memRead_ok _ _ _ _ (by rw [haddr]; exact hal) (by omega), haddr, hval, BitVec.ofNat_toNat]

/-- A fetch answers the word held at `x[63]`, and no other. -/
theorem State.fetch_eq_ok_iff {s : State} {w : Word} : s.fetch = .ok w ↔ s.HoldsWord s.ip w := by
  constructor
  · intro h
    obtain ⟨ha, hb, rfl⟩ := State.fetch_ok h
    refine ⟨ha, hb, (beBytes_eq_of_beValue (Memory.readBytes_length ..) ?_).symm⟩
    rw [BitVec.toNat_ofNat, Nat.mod_mod]
    exact Nat.mod_eq_of_lt (beValue_readBytes_lt _ _ (by decide))
  · intro h
    simpa [State.fetch] using h.memRead .fetch (k := 0) (j := 4) (lo := 0) rfl (by decide) h.aligned

/-- Settles O10: every read is of bytes that the word write laid down. -/
theorem mixedWidthsShareBytes : Obligations.MixedWidthsShareBytes := by
  intro s t a v h
  have hw : t.HoldsWord a v := State.holdsWord_of_memWrite h
  have ha := hw.aligned
  refine ⟨fun k hk => ?_, fun k hk => ?_, ?_⟩
  · exact hw.memRead .load (j := 1) (lo := 3 - k) (by omega) (by decide) (Nat.mod_one _)
  · have := hw.memRead .load (k := 2 * k) (j := 2) (lo := 2 * (1 - k)) (by omega) (by decide) (by omega)
    rwa [← Nat.mul_assoc] at this
  · simpa using hw.memRead .load (k := 0) (j := 4) (lo := 0) rfl (by decide) ha

/-- Settles O11: the four bytes held at `x[63]` are those of the word, and the opcode lies within the first. -/
theorem fetchIsBigEndian : Obligations.FetchIsBigEndian := by
  intro s w h
  obtain ⟨-, -, hbytes⟩ := State.fetch_eq_ok_iff.1 h
  simp only [Memory.readBytes, beBytes, List.cons.injEq, and_true] at hbytes
  obtain ⟨h0, h1, h2, h3⟩ := hbytes
  have hop : w.extractLsb' 27 5 = (w.extractLsb' 24 8).extractLsb' 3 5 := by
    ext b hb
    have hbyte : 3 + b < 8 := by omega
    simp [← Nat.add_assoc, hbyte]
  exact ⟨h0.symm, h1.symm, h2.symm, h3.symm, by rw [hop, h0]⟩

/-- Settles O12: the jump to the effective address leaves the word that STW put there. -/
theorem fetchSeesStores : Obligations.FetchSeesStores := by
  intro s t f h
  have hw : t.HoldsWord (effectiveAddress f s) (s.reg f.r) := State.holdsWord_of_memWrite (finishStore_next h)
  apply State.fetch_eq_ok_iff.2
  rw [State.jump_ip]
  exact hw.jump _

end Sys2Proof.Machine

/-! ### A program loaded (log entry 16) -/

namespace Sys2Proof

/-- A format C word with a defined mode decodes (R74). -/
theorem decodeC_toWord {f : FormatC} (h : f.c.defined = true) (op : Opcode) (mk : FormatC → Instr) :
    decodeC (f.toWord op) mk = .ok (mk f) := by
  simp [decodeC, h]

/-- A format J word with a defined mode decodes (R75). -/
theorem decodeJ_toWord {f : FormatJ} (h : f.c.defined = true) (op : Opcode) (mk : FormatJ → Instr) :
    decodeJ (f.toWord op) mk = .ok (mk f) := by
  rw [decodeJ, FormatJ.reserved_toWord, FormatJ.ofWord_toWord, if_neg Bool.false_ne_true, if_pos h]

/-- A format M word with a defined shift mode decodes (R77). -/
theorem decodeM_toWord {f : FormatM} (h : f.shift.defined = true) (op : Opcode) (mk : FormatM → Instr) :
    decodeM (f.toWord op) mk = .ok (mk f) := by
  simp [decodeM, h]

/-- The word of a well-formed instruction decodes to it (R85). -/
theorem decodeWord_encode {i : Instr} (h : i.wf = true) : decodeWord (encode i) = .ok i := by
  cases i with
  | mask f => simpa [decodeWord, encode] using decodeM_toWord h .mask .mask
  | cmov f => simpa [decodeWord, encode] using decodeC_toWord h .cmov .cmov
  | cmp f => simpa [decodeWord, encode] using decodeC_toWord h .cmp .cmp
  | cjmp f => simpa [decodeWord, encode] using decodeJ_toWord h .cjmp .cjmp
  | ldb f | ldh f | ldw f | stb f | sth f | stw f | add f | mul f | div f | nor f
  | inPort f | outPort f | dskr f | dskw f => simp [decodeWord, encode]
  | movi f | addi f => simp [decodeWord, encode]
  | lde low | ste low | alu5 low | alu6 low | alu7 low | mov4 low | mov5 low | mov6 low
  | sys0 low | sys low | iret low | halt low => simp [decodeWord, encode]

end Sys2Proof

namespace Sys2Proof.Machine

/-- The bytes `withFetchWord` lays down are the big-endian bytes of the word (R41). -/
theorem bytesOfWord_eq_beBytes (w : Word) : bytesOfWord w = beBytes w 4 := rfl

@[simp] theorem State.withFetchWord_mem (s : State) (nbits w : Nat) :
    (s.withFetchWord nbits w).mem =
      s.mem.writeBytes s.ip.toNat (bytesOfWord (BitVec.ofNat 32 (w % 2 ^ nbits))) := rfl

/-- The request line is released for the next step, so no interrupt is taken (R206). -/
@[simp] theorem State.withFetchWord_takesIrq (s : State) (nbits w : Nat) :
    (s.withFetchWord nbits w).takesIrq = false := by
  simp [State.takesIrq, State.irqAsserted, State.withFetchWord, Env.nextIrq]

/-- The word placed at an aligned `x[63]` inside memory is fetched by the next step (log entry 16). -/
theorem State.withFetchWord_fetches {s : State} (ha : s.ip.toNat % 4 = 0) (hb : s.ip.toNat + 4 ≤ s.cfg.memSize)
    (w : Word) : (s.withFetchWord 32 w.toNat).Fetches w := by
  have hword : BitVec.ofNat 32 (w.toNat % 2 ^ 32) = w := by
    rw [Nat.mod_eq_of_lt w.isLt, BitVec.ofNat_toNat, BitVec.setWidth_eq]
  have hmem : (s.withFetchWord 32 w.toNat).mem = s.mem.writeBytes s.ip.toNat (beBytes w 4) := by
    rw [State.withFetchWord_mem, hword, bytesOfWord_eq_beBytes]
  have hheld : (s.withFetchWord 32 w.toNat).HoldsWord s.ip w := State.holdsWord_of_writeBytes ha hb hmem
  exact ⟨rfl, State.withFetchWord_takesIrq .., State.fetch_eq_ok_iff.2 hheld⟩

/-- Settles O45: the next step fetches the instruction's word, and it decodes to the instruction. -/
theorem fetchWordIsExecuted : Obligations.FetchWordIsExecuted :=
  fun _ i hi ha hb => ⟨encode i, State.withFetchWord_fetches ha hb (encode i), decodeWord_encode hi⟩

/-! ### The recorded history (R54, R170) -/

/-- An instruction leaves the history alone, or it is a call on the environment and records it. -/
theorem exec_events_cases {i : Instr} {s t : State} (h : exec i s = .next t) :
    t.env.events = s.env.events ∨
    (i.opcode ∈ [.inPort, .outPort, .dskr, .dskw] ∧ ∃ ev, t.env.events = s.env.events ++ [ev]) := by
  obtain ⟨r, v, -, rfl⟩ | ⟨rfl, -⟩ | ⟨a, bs, -, -, rfl⟩ | ⟨f, rfl, -, rfl⟩ | ⟨f, rfl, -, rfl⟩ |
    ⟨f, rfl, -, -, rfl⟩ | ⟨f, rfl, -, -, rfl⟩ | ⟨low, -, rfl⟩ | ⟨low, -, rfl⟩ | ⟨low, -, rfl⟩ := exec_next_cases h
  case inr.inr.inr.inl =>
    exact .inr ⟨by simp [Instr.opcode], _, by rw [State.setEnv_env, Env.record_events, Env.nextIn_events]⟩
  case inr.inr.inr.inr.inl => exact .inr ⟨by simp [Instr.opcode], _, rfl⟩
  case inr.inr.inr.inr.inr.inl =>
    exact .inr ⟨by simp [Instr.opcode], _, by rw [State.setEnv_env, Env.record_events, Env.nextDisk_events]⟩
  case inr.inr.inr.inr.inr.inr.inl => exact .inr ⟨by simp [Instr.opcode], _, rfl⟩
  all_goals exact .inl rfl

/-- Settles O59: neither a trap entry nor the fetch records a call, so what a step records its instruction does. -/
theorem historyOnlyGrows : Obligations.HistoryOnlyGrows := by
  intro s t h
  obtain ⟨-, rfl⟩ | ⟨-, rfl⟩ | ⟨w, i, hf, hd, hx⟩ := step_next_cases h
  · exact .inl rfl
  · exact .inl (by simp)
  · obtain hsame | ⟨hop, ev, hev⟩ := exec_events_cases hx
    · exact .inl (by simpa using hsame)
    · exact .inr ⟨ev, i, by simpa using hev, ⟨w, hf, hd⟩, hop⟩

end Sys2Proof.Machine

/-! The encoding family: the rules of 30_encoding.md. Decoding and encoding undo each other (`decodeWord_encode`,
`encode_of_decodeWord`), so what a word is can be asked of the instruction it decodes to. A word is illegal exactly when
the decoder refuses it or its opcode is reserved (`illegalWord_iff`), and a well-formed instruction raises
IllegalInstruction exactly when its opcode is reserved (`exec_illegal_iff`). -/

namespace Sys2Proof

/-! ### Decoding (R84, R85) -/

/-- Settles O1: format by format, the fields and the opcode of a laid out word read back as they were. -/
theorem decodeOfEncode : Obligations.DecodeOfEncode := fun _ h => decodeWord_encode h

/-- A format C word that decodes has its reserved bits 0 and a defined mode (R74, R81, R87). -/
theorem decodeC_eq_ok {w : Word} {mk : FormatC → Instr} {i : Instr} (h : decodeC w mk = .ok i) :
    w.extractLsb' 4 5 = 0#5 ∧ (FormatC.ofWord w).c.defined = true ∧ mk (FormatC.ofWord w) = i := by
  obtain ⟨hres, hdef, e⟩ | ⟨-, _, e⟩ := decodeC_cases w mk <;> rw [e] at h <;> cases h
  exact ⟨hres, hdef, rfl⟩

/-- A format J word that decodes has its reserved bit 0 and a defined mode (R75, R81, R87). -/
theorem decodeJ_eq_ok {w : Word} {mk : FormatJ → Instr} {i : Instr} (h : decodeJ w mk = .ok i) :
    w.getLsbD 4 = false ∧ (FormatJ.ofWord w).c.defined = true ∧ mk (FormatJ.ofWord w) = i := by
  obtain ⟨hres, hdef, e⟩ | ⟨-, _, e⟩ := decodeJ_cases w mk <;> rw [e] at h <;> cases h
  exact ⟨hres, hdef, rfl⟩

/-- A format M word that decodes has a defined shift mode (R77, R83). -/
theorem decodeM_eq_ok {w : Word} {mk : FormatM → Instr} {i : Instr} (h : decodeM w mk = .ok i) :
    (FormatM.ofWord w).shift.defined = true ∧ mk (FormatM.ofWord w) = i := by
  obtain ⟨hdef, e⟩ | ⟨-, _, e⟩ := decodeM_cases w mk <;> rw [e] at h <;> cases h
  exact ⟨hdef, rfl⟩

/-- A word that decodes is the encoding of the well-formed instruction it decodes to (R84, R85). -/
theorem encode_of_decodeWord {w : Word} {i : Instr} (h : decodeWord w = .ok i) : i.wf = true ∧ encode i = w := by
  have hlow := wordOfLow_lowBits w
  have hR := FormatR.toWord_ofWord w
  have hI := FormatI.toWord_ofWord w
  have hM := FormatM.toWord_ofWord w
  have hC := FormatC.toWord_ofWord w
  have hJ := FormatJ.toWord_ofWord w
  rw [decodeWord] at h
  generalize opcodeOf w = op at *
  cases op
  case lde | ste | alu5 | alu6 | alu7 | mov4 | mov5 | mov6 | sys0 | sys | iret | halt =>
    cases h
    exact ⟨rfl, hlow⟩
  case movi | addi =>
    cases h
    exact ⟨rfl, hI⟩
  case mask =>
    obtain ⟨hdef, rfl⟩ := decodeM_eq_ok h
    exact ⟨hdef, hM⟩
  case cmov | cmp =>
    obtain ⟨hres, hdef, rfl⟩ := decodeC_eq_ok h
    exact ⟨hdef, hC hres⟩
  case cjmp =>
    obtain ⟨hres, hdef, rfl⟩ := decodeJ_eq_ok h
    exact ⟨hdef, hJ hres⟩
  case ldb | ldh | ldw | stb | sth | stw | add | mul | div | nor | inPort | outPort | dskr | dskw =>
    cases h
    exact ⟨rfl, hR⟩

/-- Settles O2: the opcode and the fields that were read lay the word out again. -/
theorem encodeOfDecode : Obligations.EncodeOfDecode := fun _ _ h => encode_of_decodeWord h

/-! ### Bytes (R41, R70) -/

/-- The four bytes of a word that decodes are read as its instruction, whatever follows them. -/
theorem decode_bytesOfWord_append {w : Word} {i : Instr} (h : decodeWord w = .ok i) (rest : List Byte) :
    decode (bytesOfWord w ++ rest) = .ok (i, rest) := by
  simp only [bytesOfWord, List.cons_append, List.nil_append, decode, wordOfBytes_bytesOfWord, h]

/-- Fewer than four bytes are no instruction. -/
theorem decode_truncated {bs : List Byte} (h : bs.length < 4) : decode bs = .error .truncated := by
  match bs with
  | [] | [_] | [_, _] | [_, _, _] => rfl
  | _ :: _ :: _ :: _ :: _ => exact absurd h (by simp)

/-- Settles O3: the four bytes make the word again, and the word decodes. -/
theorem decodeOfBytes : Obligations.DecodeOfBytes :=
  ⟨fun _ rest hi => decode_bytesOfWord_append (decodeWord_encode hi) rest, fun _ h => decode_truncated h⟩

/-! ### The words the decoder refuses (R81, R83, R87) -/

/-- The opcode of an instruction's word is the row of the instruction (R84). -/
theorem opcodeOf_encode (i : Instr) : opcodeOf (encode i) = i.opcode := by
  cases i <;> simp [encode, Instr.opcode]

/-- The format C words that are refused (R81, R87). -/
theorem decodeC_eq_error_iff {w : Word} {mk : FormatC → Instr} :
    (∃ e, decodeC w mk = .error e) ↔
      w.extractLsb' 4 5 ≠ 0#5 ∨ w.extractLsb' 0 4 ∈ [0x8#4, 0xB#4, 0xC#4, 0xF#4] := by
  have hmode : (FormatC.ofWord w).c.defined = true ↔ _ := CmpMode.defined_ofBits (w.extractLsb' 0 4)
  rw [← not_iff_not, not_or, not_not, ← hmode]
  obtain ⟨hres, hdef, e⟩ | ⟨hbad, e⟩ := decodeC_cases w mk
  · exact iff_of_true (by simp [e]) ⟨hres, hdef⟩
  · exact iff_of_false (not_not_intro e) hbad

/-- The format J words that are refused (R81, R87). -/
theorem decodeJ_eq_error_iff {w : Word} {mk : FormatJ → Instr} :
    (∃ e, decodeJ w mk = .error e) ↔
      w.getLsbD 4 = true ∨ w.extractLsb' 0 4 ∈ [0x8#4, 0xB#4, 0xC#4, 0xF#4] := by
  have hmode : (FormatJ.ofWord w).c.defined = true ↔ _ := CmpMode.defined_ofBits (w.extractLsb' 0 4)
  rw [← not_iff_not, not_or, Bool.not_eq_true, ← hmode]
  obtain ⟨hres, hdef, e⟩ | ⟨hbad, e⟩ := decodeJ_cases w mk
  · exact iff_of_true (by simp [e]) ⟨hres, hdef⟩
  · exact iff_of_false (not_not_intro e) hbad

/-- The format M words that are refused (R83). -/
theorem decodeM_eq_error_iff {w : Word} {mk : FormatM → Instr} :
    (∃ e, decodeM w mk = .error e) ↔ w.extractLsb' 5 2 = 0b11#2 := by
  have hmode : (FormatM.ofWord w).shift.defined = true ↔ _ := ShiftMode.defined_ofBits (w.extractLsb' 5 2)
  rw [← not_iff_not, ← ne_eq (w.extractLsb' 5 2), ← hmode]
  obtain ⟨hdef, e⟩ | ⟨hbad, e⟩ := decodeM_cases w mk
  · exact iff_of_true (by simp [e]) hdef
  · exact iff_of_false (not_not_intro e) hbad

end Sys2Proof

namespace Sys2Proof.Machine

/-- The words of R90 are those the decoder refuses and those of a reserved opcode (R86). -/
theorem illegalWord_iff (w : Word) :
    IllegalWord w ↔ (∃ e, decodeWord w = .error e) ∨ (opcodeOf w).reserved = true := by
  have hbits : w.extractLsb' 27 5 = (opcodeOf w).bits := (Opcode.bits_ofBits _).symm
  rw [IllegalWord, decodeWord, hbits]
  generalize opcodeOf w = op
  cases op
  case mask => simp [Opcode.bits, Opcode.reserved, decodeM_eq_error_iff]
  case cmov | cmp => simp [Opcode.bits, Opcode.reserved, decodeC_eq_error_iff]
  case cjmp => simp [Opcode.bits, Opcode.reserved, decodeJ_eq_error_iff]
  all_goals simp [Opcode.bits, Opcode.reserved]

/-! ### The instructions that raise IllegalInstruction (R86, R201) -/

/-- A reserved row raises IllegalInstruction with its own word (R86). -/
theorem exec_of_reserved {i : Instr} (h : i.opcode.reserved = true) (s : State) : exec i s = s.illegal i := by
  cases i
  case lde | ste | alu5 | alu6 | alu7 | mov4 | mov5 | mov6 | sys0 => rfl
  all_goals cases h

/-- Only the reserved rows may raise IllegalInstruction once decoded (R202). -/
theorem mem_mayRaise_one_iff (i : Instr) : 1 ∈ mayRaise i ↔ i.opcode.reserved = true := by
  cases i <;> simp [mayRaise, Instr.opcode, Opcode.reserved]

/-- A MemRead that fails answers the fault of one of its two checks (R47). -/
theorem State.memRead_error {s : State} {k : Access} {addr : Word} {n : Nat} {r : Fault}
    (h : s.memRead k addr n = .error r) : (addr.toNat % n ≠ 0 ∧ r = s.misaligned k addr) ∨ r = s.outside k addr := by
  obtain ⟨hmis, e⟩ | ⟨-, -, e⟩ | ⟨-, -, e⟩ := s.memRead_cases k addr n <;> rw [e] at h <;> cases h
  · exact .inl ⟨hmis, rfl⟩
  · exact .inr rfl

/-- A MemWrite that fails answers the fault of one of its two checks (R48). -/
theorem State.memWrite_error {s : State} {addr v : Word} {n : Nat} {r : Fault}
    (h : s.memWrite addr n v = .error r) :
    (addr.toNat % n ≠ 0 ∧ r = s.misaligned .store addr) ∨ r = s.outside .store addr := by
  obtain ⟨hmis, e⟩ | ⟨-, -, e⟩ | ⟨-, -, e⟩ := s.memWrite_cases addr n v <;> rw [e] at h <;> cases h
  · exact .inl ⟨hmis, rfl⟩
  · exact .inr rfl

/-- A load faults only where the value it would write does. -/
theorem State.finishLoad_fault {s : State} {d : RegIdx} {v : Except Fault Word} {r : Fault}
    (h : s.finishLoad d v = .fault r) : v = .error r := by
  cases v with
  | ok w => cases h
  | error flt => cases h; rfl

/-- Extending the value read adds no fault. -/
theorem eq_error_of_map_eq_error {g : Word → Word} {v : Except Fault Word} {r : Fault} (h : v.map g = .error r) :
    v = .error r := by
  cases v with
  | ok w => cases h
  | error flt => cases h; rfl

/-- A store faults only where its MemWrite does. -/
theorem finishStore_fault {v : Except Fault State} {r : Fault} (h : finishStore v = .fault r) : v = .error r := by
  cases v with
  | ok t => cases h
  | error flt => cases h; rfl

/-- A well-formed instruction raises no fault but those R202 gives it. -/
theorem exec_fault_code {i : Instr} {s : State} {r : Fault} (hwf : i.wf = true) (h : exec i s = .fault r) :
    r.code ∈ mayRaise i := by
  cases i with
  | lde | ste | alu5 | alu6 | alu7 | mov4 | mov5 | mov6 | sys0 => cases h; simp [Fault.code, mayRaise]
  | add | mul | nor | movi | addi | sys | iret | halt => cases h
  | ldb f =>
    obtain ⟨hmis, -⟩ | rfl := State.memRead_error (eq_error_of_map_eq_error (State.finishLoad_fault h))
    · exact absurd (Nat.mod_one _) hmis
    · simp [State.outside, Fault.code, mayRaise]
  | ldh f =>
    obtain ⟨-, rfl⟩ | rfl := State.memRead_error (eq_error_of_map_eq_error (State.finishLoad_fault h))
    · simp [State.misaligned, Fault.code, mayRaise]
    · simp [State.outside, Fault.code, mayRaise]
  | ldw f =>
    obtain ⟨-, rfl⟩ | rfl := State.memRead_error (State.finishLoad_fault h)
    · simp [State.misaligned, Fault.code, mayRaise]
    · simp [State.outside, Fault.code, mayRaise]
  | stb f =>
    obtain ⟨hmis, -⟩ | rfl := State.memWrite_error (finishStore_fault h)
    · exact absurd (Nat.mod_one _) hmis
    · simp [State.outside, Fault.code, mayRaise]
  | sth f | stw f =>
    obtain ⟨-, rfl⟩ | rfl := State.memWrite_error (finishStore_fault h)
    · simp [State.misaligned, Fault.code, mayRaise]
    · simp [State.outside, Fault.code, mayRaise]
  | div f =>
    simp only [exec, execDiv] at h
    split at h <;> cases h
    simp [Fault.code, mayRaise]
  | mask f =>
    obtain ⟨m, e⟩ := shift_defined hwf (s.reg f.y) f.s.toNat
    simp only [exec, execMask, e] at h
    cases h
  | cmov f =>
    obtain ⟨b, e⟩ := condition_defined hwf (s.reg f.x) (s.reg f.y)
    cases b <;> simp only [exec, execCmov, e] at h <;> cases h
  | cmp f =>
    obtain ⟨b, e⟩ := condition_defined hwf (s.reg f.x) (s.reg f.y)
    simp only [exec, execCmp, e] at h
    cases h
  | cjmp f =>
    obtain ⟨b, e⟩ := condition_defined hwf (s.reg f.x) (s.reg f.r)
    cases b <;> simp only [exec, execCjmp, e] at h <;> cases h
  | inPort f | outPort f =>
    simp only [exec, execInPort, execOutPort] at h
    split at h <;> cases h
    simp [Fault.code, mayRaise]
  | dskr f | dskw f =>
    simp only [exec, execDskr, execDskw] at h
    split at h
    · split at h <;> cases h
      simp [State.outside, Fault.code, mayRaise]
    · cases h
      simp [Fault.code, mayRaise]

/-- A well-formed instruction raises IllegalInstruction with its own word exactly when its opcode is reserved. -/
theorem exec_illegal_iff {i : Instr} (h : i.wf = true) (s : State) :
    exec i s = s.illegal i ↔ i.opcode.reserved = true :=
  ⟨fun e => (mem_mayRaise_one_iff i).1 (exec_fault_code h e), fun hres => exec_of_reserved hres s⟩

/-- Settles O4: the decoder refuses the word, or the decoder reads a well-formed instruction whose own word it is. -/
theorem illegalWordsExactly : Obligations.IllegalWordsExactly := by
  intro s w hf
  rw [illegalWord_iff, step_of_fetches hf]
  cases hd : decodeWord w with
  | error e => simp
  | ok i =>
    obtain ⟨hwf, rfl⟩ := encode_of_decodeWord hd
    have hx := exec_illegal_iff hwf s.afterIrqRead.advanceIp
    rw [State.illegal, State.advanceIp_fetchedFrom, State.afterIrqRead_ip] at hx
    simpa [opcodeOf_encode] using hx

/-- `mk` is the row of the reserved opcode `op`: read, laid out and executed as R86 has it. -/
structure ReservedRow (op : BitVec 5) (mk : BitVec 27 → Instr) : Prop where
  decodes : ∀ w, opcodeOf w = Opcode.ofBits op → decodeWord w = .ok (mk (lowBits w))
  encodes : ∀ low, encode (mk low) = wordOfLow (Opcode.ofBits op) low
  raises : ∀ low s, exec (mk low) s = s.illegal (mk low)

/-- Settles O5: the words are among those of R90, and each of the nine rows is read and executed in one way. -/
theorem reservedOpcodesFault : Obligations.ReservedOpcodesFault := by
  intro op mk h
  have hmem : op ∈ [0x03#5, 0x07#5, 0x0d#5, 0x0e#5, 0x0f#5, 0x14#5, 0x15#5, 0x16#5, 0x1c#5] :=
    List.mem_map_of_mem (f := Prod.fst) h
  obtain ⟨hdec, henc, hraise⟩ : ReservedRow op mk := by
    simp only [List.mem_cons, Prod.mk.injEq, List.not_mem_nil, or_false] at h
    obtain ⟨rfl, rfl⟩ | ⟨rfl, rfl⟩ | ⟨rfl, rfl⟩ | ⟨rfl, rfl⟩ | ⟨rfl, rfl⟩ | ⟨rfl, rfl⟩ | ⟨rfl, rfl⟩ | ⟨rfl, rfl⟩ |
      ⟨rfl, rfl⟩ := h
    all_goals exact ⟨fun w hw => by rw [decodeWord, hw]; rfl, fun _ => rfl, fun _ _ => rfl⟩
  refine ⟨fun w s hw hf => (illegalWordsExactly s w hf).2 (.inl (hw ▸ hmem)),
    fun w hw => hdec w ((opcodeOf_eq_iff w op).1 hw), fun low s => ⟨hraise low s, ?_, ?_⟩⟩
  · rw [opcodeOf_eq_iff, henc, opcodeOf_wordOfLow]
  · rw [henc]
    exact lowBits_wordOfLow _ _

/-! ### Conditions (R79, R80, R81) -/

/-- The undefined compare modes by name (R81). -/
theorem mem_undefined_modes_iff (c : CmpMode) : c ∈ [.x3, .x4, .x5, .x6] ↔ c.defined = false := by
  cases c <;> decide

/-- An undefined compare mode has no truth value (R81). -/
theorem condition_undefined {c : CmpMode} (h : c.defined = false) (src1 src2 : Word) :
    condition c src1 src2 = none := by
  cases c with
  | x3 | x4 | x5 | x6 => rfl
  | nz | le | lt | eq | az | gt | ge | ne | sle | slt | sgt | sge => cases h

/-- Words are compared for equality over all 32 bits (D44). -/
theorem beq_eq_decide_toNat (a b : Word) : (a == b) = decide (a.toNat = b.toNat) := by
  rw [beq_eq_decide, decide_eq_decide, BitVec.toNat_eq]

/-- The truth value of a mode is that of its comparison in R79. -/
theorem condition_eq_some {c : CmpMode} {src1 src2 : Word} {b : Bool} (h : condition c src1 src2 = some b) :
    b = true ↔ CondHolds c src1 src2 := by
  cases c with
  | x3 | x4 | x5 | x6 => cases h
  | le | lt | gt | ge | sle | slt | sgt | sge => cases h; exact decide_eq_true_iff
  | eq | ne | nz | az => cases h; simp [CondHolds, bne, beq_eq_decide_toNat]

/-- Settles O29: the defined modes have the truth value of their comparison, and each of the 16 values is the row
that its subfields describe. -/
theorem condFollowsTable : Obligations.CondFollowsTable := by
  refine ⟨rfl, fun c src1 src2 => ⟨fun hc => ?_, fun hc => ?_⟩, fun b src1 src2 => ?_⟩
  · exact condition_undefined ((mem_undefined_modes_iff c).1 hc) src1 src2
  · rw [mem_undefined_modes_iff, Bool.not_eq_false] at hc
    obtain ⟨b, hb⟩ := condition_defined hc src1 src2
    exact ⟨b, hb, condition_eq_some hb⟩
  · obtain ⟨c, rfl⟩ : ∃ c : CmpMode, c.bits = b := ⟨_, CmpMode.bits_ofBits b⟩
    rw [CmpMode.ofBits_bits]
    cases c with
    | x3 | x4 | x5 | x6 => rfl
    | le | lt | sle | slt => exact congrArg some (Bool.false_bne _).symm
    | gt | ge => exact congrArg some (by simp [CmpMode.bits, BitVec.ult, BitVec.ule, ← decide_not])
    | sgt | sge => exact congrArg some (by simp [CmpMode.bits, BitVec.slt, BitVec.sle, ← decide_not])
    | eq | ne | nz | az => exact congrArg some (by simp [CmpMode.bits, bne, beq_eq_decide_toNat])

/-! ### Pseudo-instructions (R98) -/

@[simp] theorem condition_eq_self (v : Word) : condition .eq v v = some true := by simp [condition]

@[simp] theorem condition_ne_self (v : Word) : condition .ne v v = some false := by simp [condition]

/-- MOV: CMOV.EQ of a register with itself always moves. -/
theorem exec_cmov_eq_self (d r : RegIdx) (s : State) : exec (.cmov ⟨d, r, r, .eq⟩) s = .next (s.setReg d (s.reg r)) := by
  simp [exec, execCmov]

/-- JMP: CJMP.EQ of the IP with itself always jumps. -/
theorem exec_cjmp_eq_self (j : BitVec 10) (s : State) :
    exec (.cjmp ⟨63, 63, j, .eq⟩) s = .next (s.jump (s.ip + jumpOffset ⟨63, 63, j, .eq⟩)) := by
  simp [exec, execCjmp]

/-- NOT: NOR of a register with itself and the offset 0. -/
theorem exec_nor_self (d r : RegIdx) (s : State) :
    exec (.nor ⟨d, r, r, false, 0⟩) s = .next (s.setReg d (~~~(s.reg r))) := by
  simp [exec, execNor, offset]

/-- CJMP.NE of the IP with itself never jumps. -/
theorem exec_cjmp_ne_self (j : BitVec 10) (s : State) : exec (.cjmp ⟨63, 63, j, .ne⟩) s = .next s := by
  simp [exec, execCjmp]

/-- A jump to the next instruction changes nothing. -/
theorem exec_cjmp_eq_self_zero (s : State) : exec (.cjmp ⟨63, 63, 0, .eq⟩) s = .next s := by
  have hoff : jumpOffset ⟨63, 63, 0, .eq⟩ = 0 := by decide
  rw [exec_cjmp_eq_self, hoff, show s.ip + 0 = s.ip from BitVec.add_zero s.ip]
  exact congrArg Host.Outcome.next (State.setReg_reg_self s ipIndex)

/-- Settles O30: three register writes, and the two words decode to a jump not taken and a jump of length 0. -/
theorem pseudoInstructionsExpand : Obligations.PseudoInstructionsExpand := by
  refine ⟨fun d r s => ⟨_, exec_cmov_eq_self d r s, State.setReg_reg_same .., OnlyReg.setReg ..⟩,
    fun j s => ⟨_, exec_cjmp_eq_self j s, ?_, OnlyReg.setReg ..⟩,
    fun d r s => ⟨_, exec_nor_self d r s, State.setReg_reg_same .., OnlyReg.setReg ..⟩, fun s w hw => ?_⟩
  · exact (congrArg (fun v : Word => (v.toNat : Int)) (State.jump_ip _ _)).trans (jumpTarget_toNat _ _)
  · obtain rfl | rfl := hw
    · exact ⟨_, by decide, exec_cjmp_ne_self 0 s⟩
    · exact ⟨_, by decide, exec_cjmp_eq_self_zero s⟩

end Sys2Proof.Machine

/-! The load family: the rules of 40_load.md. The three loads are one operation, a MemRead whose value is extended and
written to `x[f.r]` (`State.finishLoad_memRead`); what sets each apart is its width and its extension. -/

namespace Sys2Proof.Machine

/-- A word of the opcode of a format R row is read as that row of its fields (R73, R84). -/
theorem readsFormatR_of_encode {op : BitVec 5} {mk : FormatR → Instr}
    (henc : ∀ f, encode (mk f) = f.toWord (Opcode.ofBits op)) (hwf : ∀ f, (mk f).wf = true) : ReadsFormatR op mk := by
  intro w hw
  have hword : encode (mk (.ofWord w)) = w := by
    rw [henc, ← (opcodeOf_eq_iff w op).1 hw, FormatR.toWord_ofWord]
  have hdec := decodeWord_encode (hwf (.ofWord w))
  rwa [hword] at hdec

/-! ### The bytes read and their extension (R42, R110, R111) -/

/-- One byte as a number. -/
theorem Memory.readBytes_one (m : Memory) (a : Nat) : beValue (m.readBytes a 1) = (m.read a).toNat := by
  simp [Memory.readBytes, beValue]

/-- Two big-endian bytes as one number. -/
theorem Memory.readBytes_two (m : Memory) (a : Nat) :
    beValue (m.readBytes a 2) = (m.read a).toNat * 256 + (m.read (a + 1)).toNat := by
  simp [Memory.readBytes, beValue]

/-- The bytes read are the number in a field of their width (R47). -/
theorem setWidth_readBytes_toNat (m : Memory) (a : Nat) {n : Nat} (hn : n ≤ 4) :
    ((BitVec.ofNat 32 (beValue (m.readBytes a n))).setWidth (8 * n)).toNat = beValue (m.readBytes a n) := by
  have hlt : beValue (m.readBytes a n) < 2 ^ (8 * n) := by simpa using beValue_lt (m.readBytes a n)
  rw [BitVec.toNat_setWidth, BitVec.toNat_ofNat, Nat.mod_eq_of_lt (beValue_readBytes_lt m a hn), Nat.mod_eq_of_lt hlt]

/-- `E = 1` keeps the signed number of the low `k` bits, `E = 0` the unsigned one (D10). -/
theorem extend_value (e : Bool) {k : Nat} (hk : k ≤ 32) (v : Word) :
    if e then (extend e k v).toInt = (v.setWidth k).toInt else (extend e k v).toNat = (v.setWidth k).toNat := by
  cases e with
  | true => exact BitVec.toInt_signExtend_of_le hk
  | false => exact BitVec.toNat_setWidth_of_le hk

/-! ### The loads (R44, R46, R47) -/

/-- A load checks alignment, then bounds, then writes what `g` makes of the bytes. -/
theorem State.finishLoad_memRead (s : State) (r : RegIdx) (addr : Word) (n : Nat) (g : Word → Word) :
    s.finishLoad r ((s.memRead .load addr n).map g) =
      if addr.toNat % n ≠ 0 then .fault (.loadMisaligned (s.ip - 4) addr)
      else if s.cfg.memSize < addr.toNat + n then .fault (.loadAccess (s.ip - 4) addr)
      else .next (s.setReg r (g (BitVec.ofNat 32 (beValue (s.mem.readBytes addr.toNat n))))) := by
  obtain ⟨hmis, e⟩ | ⟨hal, hout, e⟩ | ⟨hal, hin, e⟩ := s.memRead_cases .load addr n
  · rw [e, if_pos hmis]
    rfl
  · rw [e, if_neg (not_not.2 hal), if_pos (Nat.lt_of_not_le hout)]
    rfl
  · rw [e, if_neg (not_not.2 hal), if_neg (Nat.not_lt.2 hin)]
    rfl

/-- LDB (R110): a byte is never misaligned. -/
theorem exec_ldb (f : FormatR) (s : State) :
    exec (.ldb f) s =
      if (effectiveAddress f s).toNat < s.cfg.memSize then
        .next (s.setReg f.r (extend f.e 8
          (BitVec.ofNat 32 (beValue (s.mem.readBytes (effectiveAddress f s).toNat 1)))))
      else .fault (.loadAccess (s.ip - 4) (effectiveAddress f s)) := by
  have h := s.finishLoad_memRead f.r (effectiveAddress f s) 1 (extend f.e 8)
  rw [if_neg (not_not.2 (Nat.mod_one _))] at h
  simp only [Nat.lt_add_one_iff, ← Nat.not_lt, ite_not] at h
  exact h

/-- LDH (R111): alignment is checked before bounds (D6, D7). -/
theorem exec_ldh (f : FormatR) (s : State) :
    exec (.ldh f) s =
      if (effectiveAddress f s).toNat % 2 ≠ 0 then .fault (.loadMisaligned (s.ip - 4) (effectiveAddress f s))
      else if s.cfg.memSize < (effectiveAddress f s).toNat + 2 then
        .fault (.loadAccess (s.ip - 4) (effectiveAddress f s))
      else .next (s.setReg f.r (extend f.e 16
        (BitVec.ofNat 32 (beValue (s.mem.readBytes (effectiveAddress f s).toNat 2))))) :=
  s.finishLoad_memRead f.r (effectiveAddress f s) 2 (extend f.e 16)

/-- LDW (R112): nothing is extended, so `E` plays no part. -/
theorem exec_ldw (f : FormatR) (s : State) :
    exec (.ldw f) s =
      if (effectiveAddress f s).toNat % 4 ≠ 0 then .fault (.loadMisaligned (s.ip - 4) (effectiveAddress f s))
      else if s.cfg.memSize < (effectiveAddress f s).toNat + 4 then
        .fault (.loadAccess (s.ip - 4) (effectiveAddress f s))
      else .next (s.setReg f.r (BitVec.ofNat 32 (beValue (s.mem.readBytes (effectiveAddress f s).toNat 4)))) := by
  have h := s.finishLoad_memRead f.r (effectiveAddress f s) 4 id
  rwa [Except.map_id] at h

/-- Settles O13: the byte read is the low 8 bits that are extended. -/
theorem ldbLoadsExtendedByte : Obligations.LdbLoadsExtendedByte := by
  refine ⟨readsFormatR_of_encode (fun _ => rfl) (fun _ => rfl), fun f s => ?_⟩
  rw [exec_ldb]
  split
  next hin =>
    have hbyte := (setWidth_readBytes_toNat s.mem (effectiveAddress f s).toNat (n := 1) (by decide)).trans
      (Memory.readBytes_one ..)
    refine ⟨_, rfl, ?_, OnlyReg.setReg ..⟩
    rw [State.setReg_reg_same, ← BitVec.eq_of_toNat_eq hbyte]
    exact extend_value f.e (k := 8) (by decide) _
  next hout => rfl

/-- Settles O14: the halfword is the low 16 bits that are extended. -/
theorem ldhLoadsExtendedHalfword : Obligations.LdhLoadsExtendedHalfword := by
  refine ⟨readsFormatR_of_encode (fun _ => rfl) (fun _ => rfl), fun f s => ?_⟩
  rw [exec_ldh]
  split
  next hmis => rfl
  next hal =>
    split
    next hout => rfl
    next hin =>
      have hhalf := (setWidth_readBytes_toNat s.mem (effectiveAddress f s).toNat (n := 2) (by decide)).trans
        (Memory.readBytes_two ..)
      refine ⟨_, _, rfl, hhalf, ?_, OnlyReg.setReg ..⟩
      rw [State.setReg_reg_same]
      exact extend_value f.e (k := 16) (by decide) _

/-- Settles O15: the four bytes fill the word, so nothing is extended. -/
theorem ldwLoadsWord : Obligations.LdwLoadsWord := by
  refine ⟨readsFormatR_of_encode (fun _ => rfl) (fun _ => rfl), fun f s => ?_⟩
  rw [exec_ldw]
  split
  next hmis => rfl
  next hal =>
    split
    next hout => rfl
    next hin =>
      refine ⟨_, rfl, ?_, OnlyReg.setReg ..⟩
      rw [State.setReg_reg_same, BitVec.toNat_ofNat, Nat.mod_eq_of_lt (beValue_readBytes_lt _ _ (by decide)),
        Memory.readBytes_four]

end Sys2Proof.Machine

/-! The store family: the rules of 41_store.md. The three stores are one operation, a MemWrite of `x[f.r]` at the
effective address (`finishStore_memWrite`); what sets each apart is its width. -/

namespace Sys2Proof.Machine

/-- The state with the `n` low bytes of `v` laid down big-endian from address `a` on, and nothing else changed. -/
def State.stored (s : State) (a n : Nat) (v : Word) : State := { s with mem := s.mem.writeBytes a (beBytes v n) }

/-- The bytes laid down are those of the value, the highest first (R42). -/
theorem State.stored_read (s : State) (a : Nat) (v : Word) {n k : Nat} (hk : k < n) :
    (s.stored a n v).mem.read (a + k) = v.extractLsb' (8 * (n - 1 - k)) 8 := by
  rw [State.stored, Memory.read_writeBytes_inside _ _ _ _ (by simpa using hk), beBytes_getElem]

/-- Nothing but the `n` bytes changes (R49). -/
theorem State.stored_onlyBytes (s : State) (a n : Nat) (v : Word) : OnlyBytes s (s.stored a n v) a n := by
  simpa [State.stored] using OnlyBytes.writeBytes s a (beBytes v n)

/-- A store checks alignment, then bounds, then lays its bytes down (R48). -/
theorem finishStore_memWrite (s : State) (addr : Word) (n : Nat) (v : Word) :
    finishStore (s.memWrite addr n v) =
      if addr.toNat % n ≠ 0 then .fault (.storeMisaligned (s.ip - 4) addr)
      else if s.cfg.memSize < addr.toNat + n then .fault (.storeAccess (s.ip - 4) addr)
      else .next (s.stored addr.toNat n v) := by
  obtain ⟨hmis, e⟩ | ⟨hal, hout, e⟩ | ⟨hal, hin, e⟩ := s.memWrite_cases addr n v
  · rw [e, if_pos hmis]
    rfl
  · rw [e, if_neg (not_not.2 hal), if_pos (Nat.lt_of_not_le hout)]
    rfl
  · rw [e, if_neg (not_not.2 hal), if_neg (Nat.not_lt.2 hin)]
    rfl

/-- STB (R120): a byte is never misaligned. -/
theorem exec_stb (f : FormatR) (s : State) :
    exec (.stb f) s =
      if (effectiveAddress f s).toNat < s.cfg.memSize then
        .next (s.stored (effectiveAddress f s).toNat 1 (s.reg f.r))
      else .fault (.storeAccess (s.ip - 4) (effectiveAddress f s)) := by
  have h := finishStore_memWrite s (effectiveAddress f s) 1 (s.reg f.r)
  rw [if_neg (not_not.2 (Nat.mod_one _))] at h
  simp only [Nat.lt_add_one_iff, ← Nat.not_lt, ite_not] at h
  exact h

/-- STH (R121): alignment is checked before bounds (D6, D7). -/
theorem exec_sth (f : FormatR) (s : State) :
    exec (.sth f) s =
      if (effectiveAddress f s).toNat % 2 ≠ 0 then .fault (.storeMisaligned (s.ip - 4) (effectiveAddress f s))
      else if s.cfg.memSize < (effectiveAddress f s).toNat + 2 then
        .fault (.storeAccess (s.ip - 4) (effectiveAddress f s))
      else .next (s.stored (effectiveAddress f s).toNat 2 (s.reg f.r)) :=
  finishStore_memWrite s (effectiveAddress f s) 2 (s.reg f.r)

/-- STW (R122): alignment is checked before bounds (D6, D7). -/
theorem exec_stw (f : FormatR) (s : State) :
    exec (.stw f) s =
      if (effectiveAddress f s).toNat % 4 ≠ 0 then .fault (.storeMisaligned (s.ip - 4) (effectiveAddress f s))
      else if s.cfg.memSize < (effectiveAddress f s).toNat + 4 then
        .fault (.storeAccess (s.ip - 4) (effectiveAddress f s))
      else .next (s.stored (effectiveAddress f s).toNat 4 (s.reg f.r)) :=
  finishStore_memWrite s (effectiveAddress f s) 4 (s.reg f.r)

/-- Settles O16: of the one byte laid down, `k = 0` is the low byte of the register. -/
theorem stbStoresLowByte : Obligations.StbStoresLowByte := by
  refine ⟨readsFormatR_of_encode (fun _ => rfl) (fun _ => rfl), fun f s => ?_⟩
  rw [exec_stb]
  split
  next hin => exact ⟨_, rfl, State.stored_read (k := 0) _ _ _ (by decide), State.stored_onlyBytes ..⟩
  next hout => rfl

/-- Settles O17: the two checks in their order, then two bytes laid down, the higher first. -/
theorem sthStoresLowHalfword : Obligations.SthStoresLowHalfword := by
  refine ⟨readsFormatR_of_encode (fun _ => rfl) (fun _ => rfl), fun f s => ?_⟩
  rw [exec_sth]
  split
  next hmis => rfl
  next hal =>
    split
    next hout => rfl
    next hin =>
      exact ⟨_, rfl, State.stored_read (k := 0) _ _ _ (by decide), State.stored_read (k := 1) _ _ _ (by decide),
        State.stored_onlyBytes ..⟩

/-- Settles O18: the two checks in their order, then the four bytes of the register laid down, the highest first. -/
theorem stwStoresWord : Obligations.StwStoresWord := by
  refine ⟨readsFormatR_of_encode (fun _ => rfl) (fun _ => rfl), fun f s => ?_⟩
  rw [exec_stw]
  split
  next hmis => rfl
  next hal =>
    split
    next hout => rfl
    next hin =>
      exact ⟨_, rfl, State.stored_read (k := 0) _ _ _ (by decide), State.stored_read (k := 1) _ _ _ (by decide),
        State.stored_read (k := 2) _ _ _ (by decide), State.stored_read (k := 3) _ _ _ (by decide),
        State.stored_onlyBytes ..⟩

end Sys2Proof.Machine

/-! The ALU1 family: the rules of 42_alu1.md. ADD, MUL and NOR always write `x[f.r]`, so what is left to say of them is
which number or which bits they write; DIV first asks whether its divisor is zero (`offsetSum_eq_zero_iff`). -/

namespace Sys2Proof.Machine

/-! ### The operands as numbers and as bits (R78, R134) -/

/-- A word is its signed number modulo 2^32. -/
theorem toNat_eq_toInt_emod (v : Word) : (v.toNat : Int) = v.toInt % 2 ^ 32 := by
  simpa using signExtend_toNat v

/-- The second operand is the word of the number R134 gives. -/
theorem ofInt_operandB (f : FormatR) (s : State) : BitVec.ofInt 32 (operandB f s) = offsetSum f s := by
  rw [← offsetSum_toNat, BitVec.ofInt_natCast, BitVec.ofNat_toNat, BitVec.setWidth_eq]

/-- The divisor is zero as a word exactly when it is zero as a number (R132). -/
theorem offsetSum_eq_zero_iff (f : FormatR) (s : State) : offsetSum f s = 0 ↔ operandB f s = 0 := by
  rw [← offsetSum_toNat, Int.natCast_eq_zero]
  exact BitVec.toNat_inj.symm

/-- The sign bit of the offset, bit 7, stands in every higher bit of the word (D11). -/
theorem offset_getLsbD (f : FormatR) {k : Nat} (hk : k < 32) : (offset f).getLsbD k = f.o.getLsbD (min k 7) := by
  rw [offset, BitVec.getLsbD_signExtend, decide_eq_true hk, Bool.true_and]
  split
  next hlow => rw [Nat.min_eq_left (by omega)]
  next hhigh => rw [Nat.min_eq_right (by omega), BitVec.msb_eq_getLsbD_last]

/-! ### The product and the quotient (R131, R132) -/

/-- The low word of a product is the product modulo 2^32 of the unsigned operands. -/
theorem mul_toNat (v w : Word) : ((v * w).toNat : Int) = (v.toNat * w.toNat) % 2 ^ 32 := by
  rw [BitVec.toNat_mul]
  push_cast
  rfl

/-- The low word of a product is the product modulo 2^32 of the signed operands too (D13). -/
theorem mul_toInt (v w : Word) : ((v * w).toNat : Int) = (v.toInt * w.toInt) % 2 ^ 32 := by
  rw [mul_toNat, toNat_eq_toInt_emod v, toNat_eq_toInt_emod w, ← Int.mul_emod]

/-- DIV (R132), its divisor read as the number R134 gives. -/
theorem exec_div (f : FormatR) (s : State) :
    exec (.div f) s =
      if operandB f s = 0 then .fault (.divideByZero (s.ip - 4) (encode (.div f)))
      else .next (s.setReg f.r (div32 s.cfg.div32 (s.reg f.x) (offsetSum f s))) := by
  simp only [← offsetSum_eq_zero_iff]
  rfl

/-! ### The statements -/

/-- Settles O19: a sum of words is the sum of their numbers modulo 2^32. -/
theorem addWrapsSum : Obligations.AddWrapsSum := by
  refine ⟨readsFormatR_of_encode (fun _ => rfl) (fun _ => rfl), fun f s => ⟨_, rfl, ?_, OnlyReg.setReg ..⟩⟩
  rw [State.setReg_reg_same, BitVec.toNat_add, ← offsetSum_toNat]
  push_cast
  rfl

/-- Settles O20: both readings of the operands are congruent modulo 2^32, so their products are. -/
theorem mulKeepsLowWord : Obligations.MulKeepsLowWord := by
  refine ⟨readsFormatR_of_encode (fun _ => rfl) (fun _ => rfl), fun f s => ⟨_, rfl, ?_, ?_, OnlyReg.setReg ..⟩⟩
  · rw [State.setReg_reg_same, ← offsetSum_toNat]
    exact mul_toNat ..
  · rw [State.setReg_reg_same]
    exact mul_toInt ..

/-- Settles O21: the divisor's test first, then one register write of the quotient the configuration chooses. -/
theorem divDividesOrFaults : Obligations.DivDividesOrFaults := by
  refine ⟨readsFormatR_of_encode (fun _ => rfl) (fun _ => rfl), fun f s => ?_⟩
  rw [exec_div]
  split
  next hzero => rfl
  next hnonzero =>
    refine ⟨_, rfl, OnlyReg.setReg .., ?_⟩
    rw [State.setReg_reg_same]
    cases s.cfg.div32 with
    | unsignedTruncating => rw [← offsetSum_toNat]; exact congrArg Nat.cast BitVec.toNat_udiv
    | unstated => rw [ofInt_operandB]; rfl

/-- Settles O22: bit by bit, with the offset's bits as `offset_getLsbD` gives them. -/
theorem norIsBitwise : Obligations.NorIsBitwise := by
  refine ⟨readsFormatR_of_encode (fun _ => rfl) (fun _ => rfl), fun f s =>
    ⟨_, rfl, OnlyReg.setReg .., fun k hk => ?_⟩⟩
  rw [State.setReg_reg_same, BitVec.getLsbD_not, BitVec.getLsbD_or, BitVec.getLsbD_or, offset_getLsbD f hk,
    decide_eq_true hk, Bool.true_and]

end Sys2Proof.Machine

/-! The ALU2 family: the rules of 43_alu2_mask.md. MASK is a shift, which has a number (`shift_value`), and then a
blend, which has its bits (`blend_getLsbD`); with these said of the operand forms, the instruction is one register write.
The sample words of the spec stand at the end. -/

namespace Sys2Proof

/-- The reserved shift mode is the one without a meaning (R83). -/
theorem ShiftMode.defined_iff (m : ShiftMode) : m.defined = true ↔ m ≠ .x1 := by
  cases m <;> decide

/-- A word of MASK's opcode is read as format M (R84). -/
theorem decodeWord_of_opcode_mask {w : Word} (h : w.extractLsb' 27 5 = 0x0c#5) : decodeWord w = decodeM w .mask := by
  rw [decodeWord, (opcodeOf_eq_iff w _).1 h]
  rfl

end Sys2Proof

namespace Sys2Proof.Machine

/-! ### Decoding (R83, R85) -/

/-- A word the decoder refuses raises IllegalInstruction in every step that fetches it (R85). -/
theorem raisesIllegal_of_decodeWord_error {w : Word} (h : ∃ e, decodeWord w = .error e) : RaisesIllegal w := by
  refine ⟨h, fun s hf => ?_⟩
  obtain ⟨e, he⟩ := h
  rw [step_of_fetches hf, he]
  rfl

/-- Only the reserved shift mode keeps a word of MASK's opcode from being read (R83, R84). -/
theorem readsFormatM_mask : ReadsFormatM 0x0c .mask := by
  intro w hw
  have hmode : (FormatM.ofWord w).shift.defined = true ↔ _ := ShiftMode.defined_ofBits (w.extractLsb' 5 2)
  have hdec := decodeWord_of_opcode_mask hw
  obtain ⟨hdef, hread⟩ | ⟨hres, herr⟩ := decodeM_cases w .mask
  · rw [if_pos (hmode.1 hdef)]
    exact hdec.trans hread
  · rw [if_neg (mt hmode.2 hres)]
    exact raisesIllegal_of_decodeWord_error (hdec ▸ herr)

/-! ### Shift and blend (R141, R142) -/

/-- The value of a shift, as a number under the reading its mode takes of the operand (R141). -/
theorem shift_value {mode : ShiftMode} {v m : Word} {n : Nat} (h : shift mode v n = some m) :
    (mode = .shl → m.toNat = v.toNat * 2 ^ n % 2 ^ 32) ∧
    (mode = .shr → m.toNat = v.toNat / 2 ^ n) ∧
    (mode = .sar → m.toInt = v.toInt / 2 ^ n) := by
  cases mode with
  | shl =>
    cases h
    exact ⟨fun _ => by rw [BitVec.toNat_shiftLeft, Nat.shiftLeft_eq], nofun, nofun⟩
  | shr =>
    cases h
    exact ⟨nofun, fun _ => by rw [BitVec.toNat_ushiftRight, Nat.shiftRight_eq_div_pow], nofun⟩
  | sar =>
    cases h
    exact ⟨nofun, nofun, fun _ => by rw [BitVec.toInt_sshiftRight, Int.shiftRight_eq_div_pow]; norm_cast⟩
  | x1 => cases h

/-- The bits of a blend (R142). -/
theorem blend_getLsbD (mode : BlendMode) (a m : Word) (k : Nat) :
    (mode = .and → (blend mode a m).getLsbD k = (a.getLsbD k && m.getLsbD k)) ∧
    (mode = .or → (blend mode a m).getLsbD k = (a.getLsbD k || m.getLsbD k)) ∧
    (mode = .xor → (blend mode a m).getLsbD k = (a.getLsbD k != m.getLsbD k)) := by
  refine ⟨?_, ?_, ?_⟩
  all_goals rintro rfl
  · exact BitVec.getLsbD_and
  · exact BitVec.getLsbD_or
  · exact BitVec.getLsbD_xor

/-! ### MASK (R140) -/

/-- MASK in the reserved shift mode raises IllegalInstruction with its own word (R83). -/
theorem exec_mask_reserved {f : FormatM} (h : f.shift = .x1) (s : State) : exec (.mask f) s = s.illegal (.mask f) := by
  simp only [exec, execMask, shift, h]

/-- MASK with a shifted value is one register write (R140). -/
theorem exec_mask_of_shift {f : FormatM} {s : State} {m : Word} (h : shift f.shift (s.reg f.y) f.s.toNat = some m) :
    exec (.mask f) s = .next (s.setReg f.r (blend f.blend (s.reg f.x) m)) := by
  simp only [exec, execMask, h]

/-- Settles O23: a mode that is not reserved has a shifted value, and the blend with it is the one register written. -/
theorem maskBlendsShifted : Obligations.MaskBlendsShifted := by
  refine ⟨readsFormatM_mask, rfl, rfl, fun f s => ?_⟩
  split
  next hres => exact exec_mask_reserved hres s
  next hdef =>
    obtain ⟨m, hm⟩ := shift_defined ((ShiftMode.defined_iff _).2 hdef) (s.reg f.y) f.s.toNat
    obtain ⟨hshl, hshr, hsar⟩ := shift_value hm
    refine ⟨_, m, exec_mask_of_shift hm, OnlyReg.setReg .., hshl, hshr, hsar, ?_, fun k _ => ?_⟩
    · intro hmov
      rw [State.setReg_reg_same, hmov, blend]
    · rw [State.setReg_reg_same]
      exact blend_getLsbD ..

/-! ### Sample words -/

/-- Settles O6: nine closed words, on each of which the decoder runs. -/
theorem sampleWordsDecode : Obligations.SampleWordsDecode := by
  unfold Obligations.SampleWordsDecode
  decide

end Sys2Proof.Machine

/-! The MOV1 family: the rules of 44_mov1.md. MOVI and ADDI write the number `immediate_toNat` gives. CMOV and CMP turn
on a condition, which either has no truth value or has that of its comparison (`condition_cases`). -/

namespace Sys2Proof.Machine

/-! ### Decoding (R81, R84, R87) -/

/-- A word of the opcode of a format I row is read as that row of its fields (R76, R84). -/
theorem readsFormatI_of_decodes {op : BitVec 5} {mk : FormatI → Instr}
    (hdec : ∀ w, opcodeOf w = Opcode.ofBits op → decodeWord w = .ok (mk (.ofWord w))) : ReadsFormatI op mk :=
  fun w hw => hdec w ((opcodeOf_eq_iff w op).1 hw)

/-- Only reserved bits and an undefined mode keep a word of a format C row from being read (R81, R87). -/
theorem readsFormatC_of_decodes {op : BitVec 5} {mk : FormatC → Instr}
    (hdec : ∀ w, opcodeOf w = Opcode.ofBits op → decodeWord w = decodeC w mk) : ReadsFormatC op mk := by
  intro w hw
  have hmode : (FormatC.ofWord w).c.defined = true ↔ _ := CmpMode.defined_ofBits (w.extractLsb' 0 4)
  have hword := hdec w ((opcodeOf_eq_iff w op).1 hw)
  obtain ⟨hres, hdef, hread⟩ | ⟨hbad, herr⟩ := decodeC_cases w mk
  · rw [if_pos ⟨hres, hmode.1 hdef⟩]
    exact hword.trans hread
  · rw [if_neg (mt (And.imp_right hmode.2) hbad)]
    exact raisesIllegal_of_decodeWord_error (hword ▸ herr)

/-! ### Conditional instructions (R79, R81) -/

/-- A mode is undefined and has no truth value, or it has the truth value of its comparison (R79, R81). -/
theorem condition_cases (c : CmpMode) (src1 src2 : Word) :
    (c ∈ [.x3, .x4, .x5, .x6] ∧ condition c src1 src2 = none) ∨
    (c ∉ [.x3, .x4, .x5, .x6] ∧ ∃ b, condition c src1 src2 = some b ∧ (b = true ↔ CondHolds c src1 src2)) := by
  obtain ⟨-, htable, -⟩ := condFollowsTable
  obtain ⟨hundef, hdef⟩ := htable c src1 src2
  by_cases hc : c ∈ [.x3, .x4, .x5, .x6]
  · exact .inl ⟨hc, hundef hc⟩
  · exact .inr ⟨hc, hdef hc⟩

/-- CMOV without a truth value raises IllegalInstruction with its own word (R81). -/
theorem exec_cmov_of_none {f : FormatC} {s : State} (h : condition f.c (s.reg f.x) (s.reg f.y) = none) :
    exec (.cmov f) s = s.illegal (.cmov f) := by
  simp only [exec, execCmov, h]

/-- CMOV with a truth value is one register write, or nothing at all (R152). -/
theorem exec_cmov_of_some {f : FormatC} {s : State} {b : Bool}
    (h : condition f.c (s.reg f.x) (s.reg f.y) = some b) :
    exec (.cmov f) s = .next (if b then s.setReg f.r (s.reg f.x) else s) := by
  simp only [exec, execCmov, h]
  cases b with
  | true => rfl
  | false => rfl

/-- CMP without a truth value raises IllegalInstruction with its own word (R81). -/
theorem exec_cmp_of_none {f : FormatC} {s : State} (h : condition f.c (s.reg f.x) (s.reg f.y) = none) :
    exec (.cmp f) s = s.illegal (.cmp f) := by
  simp only [exec, execCmp, h]

/-- CMP with a truth value is one register write (R153). -/
theorem exec_cmp_of_some {f : FormatC} {s : State} {b : Bool}
    (h : condition f.c (s.reg f.x) (s.reg f.y) = some b) :
    exec (.cmp f) s = .next (s.setReg f.r (if b then 1 else 0)) := by
  simp only [exec, execCmp, h]

/-! ### The statements -/

/-- Settles O24: the immediate is the one register write. -/
theorem moviWritesShiftedBase : Obligations.MoviWritesShiftedBase := by
  refine ⟨readsFormatI_of_decodes fun w hw => by rw [decodeWord, hw]; rfl, fun f s =>
    ⟨_, rfl, ?_, OnlyReg.setReg ..⟩⟩
  rw [State.setReg_reg_same, immediate_toNat]

/-- Settles O25: a sum of words is the sum of their numbers modulo 2^32. -/
theorem addiAddsShiftedBase : Obligations.AddiAddsShiftedBase := by
  refine ⟨readsFormatI_of_decodes fun w hw => by rw [decodeWord, hw]; rfl, fun f s =>
    ⟨_, rfl, ?_, OnlyReg.setReg ..⟩⟩
  rw [State.setReg_reg_same, BitVec.toNat_add, immediate_toNat]

/-- Settles O26: the register write stands under the condition, so a condition that fails leaves the state itself. -/
theorem cmovMovesWhenHolds : Obligations.CmovMovesWhenHolds := by
  refine ⟨readsFormatC_of_decodes fun w hw => by rw [decodeWord, hw]; rfl, fun f s => ?_⟩
  obtain ⟨hc, hnone⟩ | ⟨hc, b, hsome, hb⟩ := condition_cases f.c (s.reg f.x) (s.reg f.y)
  · rw [if_pos hc]
    exact exec_cmov_of_none hnone
  · rw [if_neg hc, ← hb]
    refine ⟨_, exec_cmov_of_some hsome, fun htrue => ?_, fun hfalse => if_neg hfalse⟩
    rw [if_pos htrue]
    exact ⟨State.setReg_reg_same .., OnlyReg.setReg ..⟩

/-- Settles O27: the register is written whatever the truth value, which chooses between 1 and 0. -/
theorem cmpWritesTruthValue : Obligations.CmpWritesTruthValue := by
  refine ⟨readsFormatC_of_decodes fun w hw => by rw [decodeWord, hw]; rfl, fun f s => ?_⟩
  obtain ⟨hc, hnone⟩ | ⟨hc, b, hsome, hb⟩ := condition_cases f.c (s.reg f.x) (s.reg f.y)
  · rw [if_pos hc]
    exact exec_cmp_of_none hnone
  · rw [if_neg hc, ← hb]
    refine ⟨_, exec_cmp_of_some hsome, OnlyReg.setReg .., fun htrue => ?_, fun hfalse => ?_⟩
    · rw [State.setReg_reg_same, if_pos htrue]
    · rw [State.setReg_reg_same, if_neg hfalse]

end Sys2Proof.Machine

/-! The CJMP family: the rule of 45_mov2_cjmp.md. CJMP turns on a condition as CMOV does, and what it writes when the
condition holds is the IP (`jumpTarget_toNat`). -/

namespace Sys2Proof.Machine

/-! ### Decoding (R81, R84, R87) -/

/-- Only the reserved bit and an undefined mode keep a word of a format J row from being read (R81, R87). -/
theorem readsFormatJ_of_decodes {op : BitVec 5} {mk : FormatJ → Instr}
    (hdec : ∀ w, opcodeOf w = Opcode.ofBits op → decodeWord w = decodeJ w mk) : ReadsFormatJ op mk := by
  intro w hw
  have hmode : (FormatJ.ofWord w).c.defined = true ↔ _ := CmpMode.defined_ofBits (w.extractLsb' 0 4)
  have hword := hdec w ((opcodeOf_eq_iff w op).1 hw)
  obtain ⟨hres, hdef, hread⟩ | ⟨hbad, herr⟩ := decodeJ_cases w mk
  · rw [if_pos ⟨hres, hmode.1 hdef⟩]
    exact hword.trans hread
  · rw [if_neg (mt (And.imp_right hmode.2) hbad)]
    exact raisesIllegal_of_decodeWord_error (hword ▸ herr)

/-! ### CJMP (R163) -/

/-- CJMP without a truth value raises IllegalInstruction with its own word (R81). -/
theorem exec_cjmp_of_none {f : FormatJ} {s : State} (h : condition f.c (s.reg f.x) (s.reg f.r) = none) :
    exec (.cjmp f) s = s.illegal (.cjmp f) := by
  simp only [exec, execCjmp, h]

/-- CJMP with a truth value is one jump relative to the incremented IP, or nothing at all (R163). -/
theorem exec_cjmp_of_some {f : FormatJ} {s : State} {b : Bool}
    (h : condition f.c (s.reg f.x) (s.reg f.r) = some b) :
    exec (.cjmp f) s = .next (if b then s.jump (s.ip + jumpOffset f) else s) := by
  simp only [exec, execCjmp, h]
  cases b with
  | true => rfl
  | false => rfl

/-- Settles O28: the jump stands under the condition, so a condition that fails leaves the state itself. -/
theorem cjmpJumpsWhenHolds : Obligations.CjmpJumpsWhenHolds := by
  refine ⟨readsFormatJ_of_decodes fun w hw => by rw [decodeWord, hw]; rfl, fun f s => ?_⟩
  obtain ⟨hc, hnone⟩ | ⟨hc, b, hsome, hb⟩ := condition_cases f.c (s.reg f.x) (s.reg f.r)
  · rw [if_pos hc]
    exact exec_cjmp_of_none hnone
  · rw [if_neg hc, ← hb]
    refine ⟨_, exec_cjmp_of_some hsome, fun htrue => ?_, fun hfalse => if_neg hfalse⟩
    rw [if_pos htrue]
    have htarget : (s.jump (s.ip + jumpOffset f)).reg 63 = s.ip + jumpOffset f := State.jump_ip ..
    rw [htarget]
    exact ⟨jumpTarget_toNat f s.ip, OnlyReg.setReg ..⟩

end Sys2Proof.Machine

/-! The IO family: the rules of 46_io.md. A call on the environment draws an answer and records an event, and neither
looks at the events recorded before (`Env.nextDisk_withEarlier`, `Env.record_withEarlier`); every other operation passes
the environment on, so an earlier history moves past an instruction (`exec_withEarlier`) and past a step. The two port
instructions ask for their device; the two disk instructions ask for their device and then for memory
(`State.diskChecks`). -/

namespace Sys2Proof.Machine

/-! ### An earlier history in the environment (R170) -/

section EarlierEvents
variable (h : List Event) (e : Env)

/-- An earlier history put before the one the environment holds. -/
def Env.withEarlier : Env := { e with events := h ++ e.events }

theorem Env.nextIrq_withEarlier : (e.withEarlier h).nextIrq = (e.nextIrq.1, e.nextIrq.2.withEarlier h) := by
  obtain ⟨irqLevels, inAnswers, diskBytes, freeDrawn, events⟩ := e
  cases irqLevels <;> rfl

theorem Env.nextIn_withEarlier : (e.withEarlier h).nextIn = (e.nextIn.1, e.nextIn.2.withEarlier h) := by
  obtain ⟨irqLevels, inAnswers, diskBytes, freeDrawn, events⟩ := e
  cases inAnswers <;> rfl

theorem Env.nextDiskByte_withEarlier :
    (e.withEarlier h).nextDiskByte = (e.nextDiskByte.1, e.nextDiskByte.2.withEarlier h) := by
  obtain ⟨irqLevels, inAnswers, diskBytes, freeDrawn, events⟩ := e
  cases diskBytes <;> rfl

theorem Env.nextDisk_withEarlier (n : Nat) :
    (e.withEarlier h).nextDisk n = ((e.nextDisk n).1, (e.nextDisk n).2.withEarlier h) := by
  induction n generalizing e with
  | zero => rfl
  | succ n ih => simp only [Env.nextDisk, Env.nextDiskByte_withEarlier, ih]

/-- A call is recorded after all that was recorded before it (R54). -/
theorem Env.record_withEarlier (ev : Event) : (e.withEarlier h).record ev = (e.record ev).withEarlier h := by
  simp only [Env.record, Env.withEarlier, List.append_assoc]

end EarlierEvents

/-! ### An earlier history in the state (R32) -/

section EarlierHistory
variable (h : List Event) (s : State)

@[simp] theorem State.withEarlier_reg (k : RegIdx) : (s.withEarlier h).reg k = s.reg k := rfl
@[simp] theorem State.withEarlier_ie : (s.withEarlier h).ie = s.ie := rfl
@[simp] theorem State.withEarlier_halted : (s.withEarlier h).halted = s.halted := rfl
@[simp] theorem State.withEarlier_mem : (s.withEarlier h).mem = s.mem := rfl
@[simp] theorem State.withEarlier_cfg : (s.withEarlier h).cfg = s.cfg := rfl
@[simp] theorem State.withEarlier_env : (s.withEarlier h).env = s.env.withEarlier h := rfl
@[simp] theorem State.withEarlier_ip : (s.withEarlier h).ip = s.ip := rfl
@[simp] theorem State.withEarlier_fetch : (s.withEarlier h).fetch = s.fetch := rfl

@[simp] theorem State.withEarlier_devicePresent (dev : Word) :
    (s.withEarlier h).devicePresent dev = s.devicePresent dev := rfl

@[simp] theorem State.withEarlier_inMemory (addr : Word) (n : Nat) :
    (s.withEarlier h).inMemory addr n = s.inMemory addr n := rfl

@[simp] theorem State.withEarlier_takesIrq : (s.withEarlier h).takesIrq = s.takesIrq := by
  simp only [State.takesIrq, State.irqAsserted, State.withEarlier_ie, State.withEarlier_cfg, State.withEarlier_env,
    Env.nextIrq_withEarlier]

theorem State.withEarlier_afterIrqRead : (s.withEarlier h).afterIrqRead = s.afterIrqRead.withEarlier h := by
  simp only [State.afterIrqRead, State.withEarlier_cfg, State.withEarlier_env, Env.nextIrq_withEarlier]
  split <;> rfl

theorem State.withEarlier_finishLoad (r : RegIdx) (v : Except Fault Word) :
    (s.withEarlier h).finishLoad r v = mapNext (State.withEarlier h) (s.finishLoad r v) := by
  cases v <;> rfl

theorem State.withEarlier_finishStore (addr : Word) (n : Nat) (v : Word) :
    finishStore ((s.withEarlier h).memWrite addr n v) =
      mapNext (State.withEarlier h) (finishStore (s.memWrite addr n v)) := by
  have hcheck : (s.withEarlier h).checkAccess .store addr n = s.checkAccess .store addr n := rfl
  simp only [State.memWrite, hcheck]
  cases s.checkAccess .store addr n <;> rfl

/-- An earlier history, put before an instruction or after it, is the same. -/
theorem exec_withEarlier (i : Instr) :
    exec i (s.withEarlier h) = mapNext (State.withEarlier h) (exec i s) := by
  cases i with
  | lde | ste | alu5 | alu6 | alu7 | mov4 | mov5 | mov6 | sys0 => rfl
  | add | mul | nor | movi | addi | sys | iret | halt => rfl
  | ldb f | ldh f | ldw f => exact s.withEarlier_finishLoad h f.r _
  | stb f | sth f | stw f => exact s.withEarlier_finishStore h _ _ _
  | div f =>
    have hdivisor : offsetSum f (s.withEarlier h) = offsetSum f s := rfl
    simp only [exec, execDiv, hdivisor]
    split <;> rfl
  | mask f =>
    simp only [exec, execMask, State.withEarlier_reg]
    split <;> rfl
  | cmov f | cmp f | cjmp f =>
    simp only [exec, execCmov, execCmp, execCjmp, State.withEarlier_reg]
    split <;> rfl
  | inPort f =>
    simp only [exec, execInPort, State.withEarlier_reg, State.withEarlier_devicePresent, State.withEarlier_env,
      Env.nextIn_withEarlier, Env.record_withEarlier]
    split <;> rfl
  | outPort f =>
    simp only [exec, execOutPort, State.withEarlier_reg, State.withEarlier_devicePresent, State.withEarlier_env,
      Env.record_withEarlier]
    split <;> rfl
  | dskr f | dskw f =>
    simp only [exec, execDskr, execDskw, State.withEarlier_reg, State.withEarlier_devicePresent,
      State.withEarlier_inMemory, State.withEarlier_cfg, State.withEarlier_mem, State.withEarlier_env,
      Env.nextDisk_withEarlier, Env.record_withEarlier]
    split
    · split <;> rfl
    · rfl

end EarlierHistory

/-- Settles O60: no check of the step looks at the history, and the line and the instruction pass it on (log entry 11). -/
theorem historyIsNeverRead : Obligations.HistoryIsNeverRead := by
  intro h s
  simp only [step, State.withEarlier_halted, State.withEarlier_takesIrq, State.withEarlier_fetch,
    State.withEarlier_afterIrqRead, State.withEarlier_ip]
  split
  next hhalted => rfl
  next hruns =>
    split
    next hirq => rfl
    next hnone =>
      cases s.fetch with
      | error flt => rfl
      | ok w =>
        cases hdec : decodeWord w with
        | error err => simp only [hdec, mapNext]
        | ok i =>
          simp only [hdec]
          exact exec_withEarlier h s.afterIrqRead.advanceIp i

/-! ### The ports (R172, R173) -/

/-- The port is the word of the number R134 gives. -/
theorem eq_offsetSum_of_toNat {f : FormatR} {s : State} {port : Word} (h : (port.toNat : Int) = operandB f s) :
    port = offsetSum f s :=
  BitVec.eq_of_toNat_eq (Int.ofNat_inj.1 (h.trans (offsetSum_toNat f s).symm))

/-- An answer to IN leaves the line and the coming disk bytes alone. -/
theorem Env.nextIn_frame (e : Env) : e.nextIn.2.irqLevels = e.irqLevels ∧ e.nextIn.2.diskBytes = e.diskBytes := by
  unfold Env.nextIn
  split <;> exact ⟨rfl, rfl⟩

/-- A call changes nothing but the environment. -/
theorem State.setEnv_frame (s : State) (e : Env) :
    SameRegs s (s.setEnv e) ∧ SameMemory s (s.setEnv e) ∧ SameSystem s (s.setEnv e) :=
  ⟨fun _ => rfl, fun _ => rfl, rfl, rfl, rfl, rfl, rfl⟩

/-- Settles O31: the answer drawn is both the register's new value and the one in the event. -/
theorem inReadsPort : Obligations.InReadsPort := by
  refine ⟨readsFormatR_of_encode (fun _ => rfl) (fun _ => rfl), fun f s port hport => ?_⟩
  obtain rfl := eq_offsetSum_of_toNat hport
  split
  next hpresent =>
    obtain ⟨hirq, hdisk⟩ := s.env.nextIn_frame
    obtain ⟨hregs, hmem, hsys, -⟩ := OnlyReg.setReg s f.r s.env.nextIn.1
    refine ⟨_, _, if_pos hpresent, State.setReg_reg_same .., ?_, hirq, hdisk, hregs, hmem, hsys⟩
    rw [State.setEnv_env, Env.record_events, Env.nextIn_events]
  next habsent => exact if_neg habsent

/-- Settles O32: with the device present OUT is its event and nothing else. -/
theorem outWritesPort : Obligations.OutWritesPort := by
  refine ⟨readsFormatR_of_encode (fun _ => rfl) (fun _ => rfl), fun f s port hport => ?_⟩
  obtain rfl := eq_offsetSum_of_toNat hport
  split
  next hpresent => exact ⟨_, if_pos hpresent, rfl, State.setEnv_frame ..⟩
  next habsent => exact if_neg habsent

/-! ### The disk (R174, R175) -/

/-- The two checks of a block's move: the device, then the whole block inside memory (R208). -/
theorem State.diskChecks (s : State) (dev base : Word) (moved outside absent : Host.Outcome State Fault Refusal) :
    (if s.devicePresent dev = true then
      if s.inMemory base s.cfg.diskBlockSize = true then moved else outside
    else absent) =
      if s.devicePresent dev = false then absent
      else if s.cfg.memSize < base.toNat + s.cfg.diskBlockSize then outside
      else moved := by
  simp only [State.inMemory_iff, ← Nat.not_lt, ite_not, ← Bool.not_eq_true]

/-- DSKR (R174): the checks, then the block laid down and recorded. -/
theorem exec_dskr (f : FormatR) (s : State) :
    exec (.dskr f) s =
      if s.devicePresent (s.reg f.y) = false then .fault (.device (s.ip - 4) (s.reg f.y) (s.reg f.x))
      else if s.cfg.memSize < (s.reg f.r).toNat + s.cfg.diskBlockSize then
        .fault (.storeAccess (s.ip - 4) (s.reg f.r))
      else .next ({ s with
          mem := s.mem.writeBytes (s.reg f.r).toNat (s.env.nextDisk s.cfg.diskBlockSize).1 }.setEnv
        ((s.env.nextDisk s.cfg.diskBlockSize).2.record
          (.diskRead (s.reg f.y) (s.reg f.x) (s.env.nextDisk s.cfg.diskBlockSize).1))) :=
  s.diskChecks (s.reg f.y) (s.reg f.r) _ _ _

/-- DSKW (R175): the checks, then the block recorded as it stands in memory. -/
theorem exec_dskw (f : FormatR) (s : State) :
    exec (.dskw f) s =
      if s.devicePresent (s.reg f.y) = false then .fault (.device (s.ip - 4) (s.reg f.y) (s.reg f.x))
      else if s.cfg.memSize < (s.reg f.r).toNat + s.cfg.diskBlockSize then
        .fault (.loadAccess (s.ip - 4) (s.reg f.r))
      else .next (s.setEnv (s.env.record (.diskWrite (s.reg f.y) (s.reg f.x)
        (s.mem.readBytes (s.reg f.r).toNat s.cfg.diskBlockSize)))) :=
  s.diskChecks (s.reg f.y) (s.reg f.r) _ _ _

/-- Settles O33: the bytes drawn are both the run laid down from the base on and the ones in the event. -/
theorem dskrReadsBlock : Obligations.DskrReadsBlock := by
  refine ⟨readsFormatR_of_encode (fun _ => rfl) (fun _ => rfl), fun f s => ?_⟩
  rw [exec_dskr]
  split
  next habsent => rfl
  next hpresent =>
    split
    next hout => rfl
    next hin =>
      obtain ⟨hirq, hport⟩ := s.env.nextDisk_frame s.cfg.diskBlockSize
      obtain ⟨hregs, hrest, hsys, -⟩ :=
        OnlyBytes.writeBytes s (s.reg f.r).toNat (s.env.nextDisk s.cfg.diskBlockSize).1
      refine ⟨_, _, rfl, Env.nextDisk_length .., fun k hk => ?_, hrest, ?_, hirq, hport, hregs, hsys⟩
      · rw [List.getElem?_eq_getElem hk]
        exact congrArg some (Memory.read_writeBytes_inside _ _ _ _ hk)
      · rw [State.setEnv_env, Env.record_events, Env.nextDisk_events]

/-- Settles O34: the bytes in the event are those memory reads as, and the event is all that is new. -/
theorem dskwWritesBlock : Obligations.DskwWritesBlock := by
  refine ⟨readsFormatR_of_encode (fun _ => rfl) (fun _ => rfl), fun f s => ?_⟩
  rw [exec_dskw]
  split
  next habsent => rfl
  next hpresent =>
    split
    next hout => rfl
    next hin =>
      refine ⟨_, _, rfl, Memory.readBytes_length .., fun k hk => ?_, rfl, State.setEnv_frame ..⟩
      rw [List.getElem?_eq_getElem hk, Memory.readBytes_getElem]

end Sys2Proof.Machine

/-! The trap family: the rules of 47_sys.md, 60_exceptions.md and 70_reset_and_hazards.md. Trap entry is said once
(`State.trapEntry_trapTaken`) for SYS and for the interrupt. The checks of a step are one equation each (`step_of_halted`,
`step_of_interrupts`, `step_of_fetch_error`, `step_of_fetches`, `step_of_executes`), and `CompletesOrFaultsAt` says how an
instruction and a step can end: with a next state, or with a fault recorded at the address of the fetch. The environment's
answers stand at the end. -/

namespace Sys2Proof.Machine

/-! ### Trap entry and the SYS group (R181, R182, R183, R210, R213) -/

/-- A word of the opcode of a row that uses no field is read as that row of its low 27 bits (R84, R88). -/
theorem readsOpcodeOnly_of_decodes {op : BitVec 5} {mk : BitVec 27 → Instr}
    (hdec : ∀ w, opcodeOf w = Opcode.ofBits op → decodeWord w = .ok (mk (lowBits w))) : ReadsOpcodeOnly op mk :=
  fun w hw => hdec w ((opcodeOf_eq_iff w op).1 hw)

/-- Trap entry is R210's, at the vector of its cause. -/
theorem State.trapEntry_trapTaken (s : State) (cause : TrapCause) :
    TrapTaken s (s.trapEntry cause) (s.vector cause) :=
  ⟨rfl, rfl, rfl, State.trapEntry_ip s cause, fun k hk => (State.trapEntry_reg s cause k).trans (if_neg hk),
    fun _ => rfl, rfl, rfl⟩

/-- IRET takes `x[62]` from its save register. -/
theorem State.trapReturn_reg_saved (s : State) : s.trapReturn.reg 62 = s.s62 := by
  rw [State.trapReturn_reg, if_neg (by decide), if_pos (by decide)]

/-- IRET keeps every other register (R182). -/
theorem State.trapReturn_reg_ne (s : State) {k : RegIdx} (h62 : k ≠ 62) (h63 : k ≠ 63) :
    s.trapReturn.reg k = s.reg k :=
  (s.trapReturn_reg k).trans ((if_neg h63).trans (if_neg h62))

/-- Settles O41: SYS saves the two registers IRET takes back, and nothing but the save registers passes between them. -/
theorem trapRoundTrip : Obligations.TrapRoundTrip := by
  intro low low' s h t u hsys h62 h63 hiret
  cases hsys
  cases hiret
  exact ⟨(State.trapReturn_ip h).trans h63, h.trapReturn_reg_saved.trans h62, rfl,
    fun _ hk62 hk63 => h.trapReturn_reg_ne hk62 hk63⟩

/-- Settles O35: the two causes differ in their vector only. -/
theorem trapEntrySavesAndVectors : Obligations.TrapEntrySavesAndVectors := by
  intro s cause
  refine ⟨?_, State.trapEntry_env s cause⟩
  cases cause with
  | sys => exact s.trapEntry_trapTaken .sys
  | irq => exact s.trapEntry_trapTaken .irq

/-- Settles O36: the meaning of SYS is trap entry, with no check before it. -/
theorem sysEntersTrap : Obligations.SysEntersTrap :=
  ⟨readsOpcodeOnly_of_decodes fun w hw => by rw [decodeWord, hw]; rfl,
    fun _ s => ⟨s.trapEntry .sys, rfl, s.trapEntry_trapTaken .sys, rfl⟩⟩

/-- Settles O37: the return writes `x[62]`, `x[63]` and `IE`. -/
theorem iretRestoresAndEnables : Obligations.IretRestoresAndEnables :=
  ⟨readsOpcodeOnly_of_decodes fun w hw => by rw [decodeWord, hw]; rfl, fun _ s =>
    ⟨s.trapReturn, rfl, s.trapReturn_reg_saved, State.trapReturn_ip s, rfl, rfl, rfl,
      fun _ hk62 hk63 => s.trapReturn_reg_ne hk62 hk63, fun _ => rfl, rfl, rfl, rfl⟩⟩

/-- Settles O38: the check for a halted machine is a step's first, before the line is read (log entry 10). -/
theorem haltIsFinal : Obligations.HaltIsFinal :=
  ⟨readsOpcodeOnly_of_decodes fun w hw => by rw [decodeWord, hw]; rfl,
    fun _ s => ⟨{ s with halted := true }, rfl, rfl, fun _ => rfl, fun _ => rfl, rfl, rfl, rfl, rfl, rfl,
      step_of_halted rfl⟩⟩

/-! ### The checks of a step (R206, R208) -/

/-- An interrupt entry (R206). -/
theorem step_of_interrupts {s : State} (h : s.Interrupts) : step s = .next (s.afterIrqRead.trapEntry .irq) := by
  obtain ⟨hruns, hirq⟩ := h
  rw [step, hruns, hirq]
  rfl

/-- A fetch that fails is the step's fault (R208, checks 3 and 4). -/
theorem step_of_fetch_error {s : State} {r : Fault} (hruns : s.halted = false) (hnone : s.takesIrq = false)
    (h : s.fetch = .error r) : step s = .fault r := by
  rw [step, hruns, hnone, h]
  rfl

/-- Reading the line touches nothing a trap entry saves or leaves alone. -/
theorem TrapTaken.of_afterIrqRead {s t : State} {v : Word} (h : TrapTaken s.afterIrqRead t v) : TrapTaken s t v := by
  simpa [TrapTaken, SameMemory] using h

/-- Settles O39: an enabled and asserted request is an interrupt entry, whatever stands at `x[63]`. -/
theorem interruptWinsOverInstruction : Obligations.InterruptWinsOverInstruction := by
  intro s hruns hie hasserted
  have hirq : s.Interrupts := ⟨hruns, by rw [State.takesIrq, hie, hasserted]; rfl⟩
  have hvector : s.afterIrqRead.vector .irq = s.cfg.irqVector := congrArg Config.irqVector s.afterIrqRead_cfg
  exact ⟨_, step_of_interrupts hirq, .of_afterIrqRead (hvector ▸ s.afterIrqRead.trapEntry_trapTaken .irq),
    s.afterIrqRead_events⟩

/-- Settles O43: the fetch makes checks 3 and 4, and the decoder refuses the word it answers or reads an instruction. -/
theorem stepChecksInOrder : Obligations.StepChecksInOrder := by
  refine fun s => ⟨step_of_halted, fun hruns hnone hmis => ?_, fun hruns hnone hal hout => ?_,
    fun hruns hnone hal hin => ?_⟩
  · exact step_of_fetch_error hruns hnone (s.memRead_misaligned .fetch s.ip 4 hmis)
  · exact step_of_fetch_error hruns hnone (s.memRead_outside .fetch s.ip 4 hal hout)
  · obtain ⟨w, hf⟩ : ∃ w, s.Fetches w := ⟨_, hruns, hnone, s.memRead_ok .fetch s.ip 4 hal hin⟩
    refine ⟨w, hf, ?_⟩
    cases hd : decodeWord w with
    | error e =>
      obtain ⟨-, hfault⟩ := raisesIllegal_of_decodeWord_error ⟨e, hd⟩
      exact .inl (hfault s hf)
    | ok i => exact .inr ⟨i, w, hf, hd⟩

/-- Settles O42: the line's read touches the environment's coming answers, the increment `x[63]` (log entry 13). -/
theorem stepRunsDecoded : Obligations.StepRunsDecoded := by
  refine fun s i hx => ⟨step_of_executes hx, ?_, fun k hk => ?_, ?_, ?_, ?_⟩
  · calc s.afterIrqRead.advanceIp.reg 63 = s.afterIrqRead.ip + 4 := State.advanceIp_ip _
      _ = s.reg 63 + 4 := by rw [State.afterIrqRead_ip]; rfl
  · exact (State.advanceIp_reg _ k).trans ((if_neg hk).trans (State.afterIrqRead_reg s k))
  · rw [State.advanceIp_mem, State.afterIrqRead_mem]
  · simp [SameSystem]
  · rw [State.advanceIp_env, State.afterIrqRead_events]

/-! ### How an instruction and a step can end (R200, R202) -/

/-- The outcome is a next state, or a fault recorded at `a0`; it is no refusal. -/
def CompletesOrFaultsAt (a0 : Word) : Host.Outcome State Fault Refusal → Prop
  | .next _ => True
  | .fault r => r.origin = a0
  | .refused _ => False

/-- A check leaves two ways to end. -/
theorem CompletesOrFaultsAt.ite {a0 : Word} {c : Prop} [Decidable c] {o o' : Host.Outcome State Fault Refusal}
    (h : CompletesOrFaultsAt a0 o) (h' : CompletesOrFaultsAt a0 o') :
    CompletesOrFaultsAt a0 (if c then o else o') := by
  split
  · exact h
  · exact h'

/-- Every check of an instruction stands before its writes, so its fault records where it was fetched (log entry 12). -/
theorem exec_completesOrFaultsAt (i : Instr) (s : State) : CompletesOrFaultsAt s.fetchedFrom (exec i s) := by
  cases i with
  | lde | ste | alu5 | alu6 | alu7 | mov4 | mov5 | mov6 | sys0 => exact rfl
  | add | mul | nor | movi | addi | sys | iret | halt => trivial
  | ldb f => rw [exec_ldb]; exact .ite trivial rfl
  | ldh f => rw [exec_ldh]; exact .ite rfl (.ite rfl trivial)
  | ldw f => rw [exec_ldw]; exact .ite rfl (.ite rfl trivial)
  | stb f => rw [exec_stb]; exact .ite trivial rfl
  | sth f => rw [exec_sth]; exact .ite rfl (.ite rfl trivial)
  | stw f => rw [exec_stw]; exact .ite rfl (.ite rfl trivial)
  | div f => rw [exec_div]; exact .ite rfl trivial
  | mask f =>
    cases hm : shift f.shift (s.reg f.y) f.s.toNat with
    | none => simp only [exec, execMask, hm]; exact rfl
    | some m => rw [exec_mask_of_shift hm]; trivial
  | cmov f =>
    cases hc : condition f.c (s.reg f.x) (s.reg f.y) with
    | none => rw [exec_cmov_of_none hc]; exact rfl
    | some b => rw [exec_cmov_of_some hc]; trivial
  | cmp f =>
    cases hc : condition f.c (s.reg f.x) (s.reg f.y) with
    | none => rw [exec_cmp_of_none hc]; exact rfl
    | some b => rw [exec_cmp_of_some hc]; trivial
  | cjmp f =>
    cases hc : condition f.c (s.reg f.x) (s.reg f.r) with
    | none => rw [exec_cjmp_of_none hc]; exact rfl
    | some b => rw [exec_cjmp_of_some hc]; trivial
  | inPort f | outPort f => exact .ite trivial rfl
  | dskr f => rw [exec_dskr]; exact .ite rfl (.ite rfl trivial)
  | dskw f => rw [exec_dskw]; exact .ite rfl (.ite rfl trivial)

/-- A fetch that fails records the address of the attempt (R200). -/
theorem State.fetch_error_origin {s : State} {r : Fault} (h : s.fetch = .error r) : r.origin = s.ip := by
  obtain ⟨-, rfl⟩ | rfl := State.memRead_error h
  · rfl
  · rfl

/-- A step ends at the address in `x[63]`, whichever of its checks decides (R208). -/
theorem step_completesOrFaultsAt (s : State) : CompletesOrFaultsAt s.ip (step s) := by
  cases hhalted : s.halted with
  | true => rw [step_of_halted hhalted]; trivial
  | false =>
    cases hirq : s.takesIrq with
    | true => rw [step_of_interrupts ⟨hhalted, hirq⟩]; trivial
    | false =>
      cases hf : s.fetch with
      | error r => rw [step_of_fetch_error hhalted hirq hf]; exact State.fetch_error_origin hf
      | ok w =>
        cases hd : decodeWord w with
        | error e => rw [step_of_fetches ⟨hhalted, hirq, hf⟩, hd]; exact rfl
        | ok i =>
          rw [step_of_executes ⟨w, ⟨hhalted, hirq, hf⟩, hd⟩]
          simpa using exec_completesOrFaultsAt i s.afterIrqRead.advanceIp

/-- Settles O46: instruction by instruction, the faults its checks can answer. -/
theorem faultsAsTabled : Obligations.FaultsAsTabled := fun _ _ _ hwf h => exec_fault_code hwf h

/-- Settles O47: the increment of the fetch undoes itself in the record (log entry 12). -/
theorem faultsRecordOrigin : Obligations.FaultsRecordOrigin := by
  intro s r h
  have hend := step_completesOrFaultsAt s
  rwa [h] at hend

/-- Settles O48: an instruction that ends neither in a refusal nor in a fault completes. -/
theorem noStepIsRefused : Obligations.NoStepIsRefused := by
  refine ⟨fun s r h => ?_, fun i s hwf hnone => ?_⟩
  · have hend := step_completesOrFaultsAt s
    rwa [h] at hend
  · have hend := exec_completesOrFaultsAt i s
    cases hx : exec i s with
    | next t => exact ⟨t, rfl⟩
    | fault r =>
      have hcode := exec_fault_code hwf hx
      rw [hnone] at hcode
      cases hcode
    | refused r =>
      rw [hx] at hend
      cases hend

/-! ### The environment's answers (R170, R205) -/

/-- The next level laid down is the line's, and it is used up (log entry 5). -/
theorem Env.nextIrq_of_cons {e : Env} {b : Bool} {rest : List Bool} (h : e.irqLevels = b :: rest) :
    e.nextIrq = (b, { e with irqLevels := rest }) := by
  simp only [Env.nextIrq, h]

/-- The next answer laid down is that of IN, and it is used up (log entry 6). -/
theorem Env.nextIn_of_cons {e : Env} {v : Word} {rest : List Word} (h : e.inAnswers = v :: rest) :
    e.nextIn = (v, { e with inAnswers := rest }) := by
  simp only [Env.nextIn, h]

/-- No instruction reads the line. -/
theorem exec_irqLevels {i : Instr} {s t : State} (h : exec i s = .next t) : t.env.irqLevels = s.env.irqLevels := by
  obtain ⟨r, v, -, rfl⟩ | ⟨rfl, -⟩ | ⟨a, bs, -, -, rfl⟩ | ⟨f, -, -, rfl⟩ | ⟨f, -, -, rfl⟩ | ⟨f, -, -, -, rfl⟩ |
    ⟨f, -, -, -, rfl⟩ | ⟨low, -, rfl⟩ | ⟨low, -, rfl⟩ | ⟨low, -, rfl⟩ := exec_next_cases h
  case inr.inr.inr.inl => exact s.env.nextIn_frame.1
  case inr.inr.inr.inr.inr.inl => exact (s.env.nextDisk_frame s.cfg.diskBlockSize).1
  all_goals rfl

/-- A step of a running machine reads the line once, whatever else it does. -/
theorem step_irqLevels {s t : State} (hruns : s.halted = false) (h : step s = .next t) :
    t.env.irqLevels = s.afterIrqRead.env.irqLevels := by
  obtain ⟨hhalted, -⟩ | ⟨-, rfl⟩ | ⟨w, i, -, -, hx⟩ := step_next_cases h
  · rw [hruns] at hhalted
    cases hhalted
  · rfl
  · rw [exec_irqLevels hx, State.advanceIp_env]

/-- Settles O40: each list is read from its head, by the line's read, by IN and by DSKR. -/
theorem environmentAnswersInOrder : Obligations.EnvironmentAnswersInOrder := by
  refine ⟨fun s hline => ?_, fun s hie hirq => ?_, fun s b rest hline hlevels => ?_,
    fun f s v rest hdev hanswers => ?_, fun f s hdev hin hbytes => ?_⟩
  · rw [State.irqAsserted, hline, Bool.false_and]
  · obtain ⟨-, htakes⟩ := hirq
    rw [State.takesIrq, hie, Bool.false_and] at htakes
    cases htakes
  · have hnext := Env.nextIrq_of_cons hlevels
    refine ⟨by rw [State.irqAsserted, hline, hnext, Bool.true_and], fun t hruns h => ?_⟩
    rw [step_irqLevels hruns h, State.afterIrqRead, if_pos hline, State.setEnv_env, hnext]
  · have hnext := Env.nextIn_of_cons hanswers
    refine ⟨_, if_pos hdev, ?_, ?_⟩
    · rw [State.setEnv_reg, State.setReg_reg_same, hnext]
    · rw [State.setEnv_env, hnext]
      rfl
  · rw [exec_dskr, if_neg (by rw [hdev]; decide), if_neg (Nat.not_lt.2 hin)]
    refine ⟨_, rfl, Env.nextDisk_rest _ _ hbytes, fun k hk => ?_⟩
    have hlen : k < (s.env.nextDisk s.cfg.diskBlockSize).1.length := by rwa [Env.nextDisk_length]
    rw [← Env.nextDisk_getElem _ _ k hk (hk.trans_le hbytes), List.getElem?_eq_getElem hlen]
    exact congrArg some (Memory.read_writeBytes_inside _ _ _ _ hlen)

end Sys2Proof.Machine
